-- ==== Sys2Proof/Word.lean ====
section
/-! DEFINITION. The machine word and the byte of the MPMU (spec/00_scope.md rules R6, R7, R8). -/

namespace Sys2Proof

/-- R6, R7: the machine word is 32 bits (`WORD_BITS`); R8: its bits are numbered from 0 at the least significant. -/
abbrev Word := BitVec 32

/-- R23: one register of the byte buffer is 8 bits. -/
abbrev Byte := BitVec 8

end Sys2Proof
end

