-- ==== Sys2Proof/Syntax.lean ====
section
/-! DEFINITION. The command set of the MPMU, version 1 (spec/30_encoding.md rules R80 to R86). -/

namespace Sys2Proof

/-- R6: the closed set of key widths. -/
inductive Width where
  | w1024
  | w2048
  | w4096
deriving DecidableEq, Repr

/-- R82, R88: the width selector of a command. `unsupported` is `WSEL = 3`, written `w?`: a decodable command with a
width that does not exist. -/
inductive Wsel where
  | w1024
  | w2048
  | w4096
  | unsupported
deriving DecidableEq, Repr

/-- R83: the five commands, one constructor per row of the opcode map, in the order of its rows. `len` is the `LEN`
field, an unsigned number of bytes (R81). -/
inductive Instr where
  /-- R121: `B2W wX, len`, big-endian bytes to words; `len` is the declared input length. -/
  | b2w (ws : Wsel) (len : Nat)
  /-- R124: `W2B wX, cap`, words to big-endian bytes; `len` is the declared output capacity. -/
  | w2b (ws : Wsel) (len : Nat)
  /-- R101: `MPRIME wX`, the reduction constant. -/
  | mprime (ws : Wsel)
  /-- R104: `RCALC wX`, the R-value. -/
  | rcalc (ws : Wsel)
  /-- R140: `ZERO`. -/
  | zero
deriving DecidableEq, Repr

end Sys2Proof
end

