-- ==== Sys2Proof/WellFormed.lean ====
section
/-! DEFINITION. Which commands a command word can spell: the range of the one immediate (spec/30_encoding.md rule R81). -/

namespace Sys2Proof

/-- R80, R81: `LEN` has 10 bits and reaches 1023. -/
def lenFits (len : Nat) : Bool := len < 1024

/-- R80, R81: a command is well formed when its length fits the `LEN` field. `MPRIME`, `RCALC` and `ZERO` carry none. -/
def Instr.wellFormed : Instr → Bool
  | .b2w _ len => lenFits len
  | .w2b _ len => lenFits len
  | .mprime _ => true
  | .rcalc _ => true
  | .zero => true

end Sys2Proof
end

