-- ==== Sys2Proof/Decode.lean ====
section
/-! DEFINITION. The command word read and written: decoder, encoder and opcode map (spec/30_encoding.md rules R80 to R90).
The decoder is total on all 2^32 words and rejects by name; the encoder is written from the same table. -/

namespace Sys2Proof

/-- R84 step 1, R85: why a word is no command. Each of them is the one result code `IllegalCommand` (R150). -/
inductive Reject where
  /-- Bits 31:26 or bits 15:6 are not all 0. -/
  | reservedBits
  /-- `OP` is 0 or 6 to 15. -/
  | noSuchOpcode
  /-- `OP` is 3 or 4 and `LEN` is not 0. -/
  | lengthNotZero
  /-- `OP` is 5 and `LEN` or `WSEL` is not 0. -/
  | zeroFieldsNotZero
deriving DecidableEq, Repr

/-- R80, R81: `OP = c[3:0]`. -/
def fieldOp (c : Word) : BitVec 4 := c.extractLsb' 0 4

/-- R80, R81: `WSEL = c[5:4]`. -/
def fieldWsel (c : Word) : BitVec 2 := c.extractLsb' 4 2

/-- R80: `Z0 = c[15:6]`, must be 0. -/
def fieldZ0 (c : Word) : BitVec 10 := c.extractLsb' 6 10

/-- R80, R81: `LEN = c[25:16]`. -/
def fieldLen (c : Word) : BitVec 10 := c.extractLsb' 16 10

/-- R80: `Z1 = c[31:26]`, must be 0. -/
def fieldZ1 (c : Word) : BitVec 6 := c.extractLsb' 26 6

/-- R6, R82: the selector numbers. -/
def wselOfBits (x : BitVec 2) : Wsel :=
  match x.toNat with
  | 0 => .w1024
  | 1 => .w2048
  | 2 => .w4096
  | _ => .unsupported

/-- R84 step 1: is the word a command at all, and which. The tests stand in the rule's order. The width is not tested
here: `WSEL = 3` is a decodable command (R82, R86). -/
def decode (c : Word) : Except Reject Instr :=
  if fieldZ1 c ≠ 0 ∨ fieldZ0 c ≠ 0 then .error .reservedBits
  else
    match (fieldOp c).toNat with
    | 1 => .ok (.b2w (wselOfBits (fieldWsel c)) (fieldLen c).toNat)
    | 2 => .ok (.w2b (wselOfBits (fieldWsel c)) (fieldLen c).toNat)
    | 3 => if fieldLen c = 0 then .ok (.mprime (wselOfBits (fieldWsel c))) else .error .lengthNotZero
    | 4 => if fieldLen c = 0 then .ok (.rcalc (wselOfBits (fieldWsel c))) else .error .lengthNotZero
    | 5 => if fieldLen c = 0 ∧ fieldWsel c = 0 then .ok .zero else .error .zeroFieldsNotZero
    | _ => .error .noSuchOpcode

/-- The host's numbering of a table word: bit 0 is the least significant bit of the command word (R80), the bits from
`nbits` up are 0, and a command is one 32-bit word (R87). -/
def tableWord (nbits w : Nat) : Word := BitVec.ofNat 32 (w % 2 ^ nbits)

/-- What the decoder reads from an opcode-table word. -/
def decodeTableWord (nbits w : Nat) : Option Instr :=
  match decode (tableWord nbits w) with
  | .ok i => some i
  | .error _ => none

/-- R6, R82: the selector's bits. -/
def wselBits : Wsel → BitVec 2
  | .w1024 => 0
  | .w2048 => 1
  | .w4096 => 2
  | .unsupported => 3

/-- R80: format `C`, most significant field first: `Z1 = 0`, `LEN`, `Z0 = 0`, `WSEL`, `OP`. -/
def commandWord (len : BitVec 10) (ws : BitVec 2) (op : BitVec 4) : Word :=
  (0 : BitVec 6) ++ len ++ (0 : BitVec 10) ++ ws ++ op

/-- R83, R88: the word of each command. -/
def encode : Instr → Word
  | .b2w ws len => commandWord (BitVec.ofNat 10 len) (wselBits ws) 1
  | .w2b ws len => commandWord (BitVec.ofNat 10 len) (wselBits ws) 2
  | .mprime ws => commandWord 0 (wselBits ws) 3
  | .rcalc ws => commandWord 0 (wselBits ws) 4
  | .zero => commandWord 0 0 5

/-- One row of the match and mask table of R83 (spec/opcode_table.json). -/
structure OpcodeRow where
  mnemonic : String
  pattern : Word
  mask : Word
deriving DecidableEq, Repr

/-- R83: a word `c` spells the command of a row when `c & mask == match`. -/
def OpcodeRow.spells (r : OpcodeRow) (c : Word) : Bool := c &&& r.mask == r.pattern

/-- R83: the table, in the order of its rows. -/
def opcodeMap : List OpcodeRow :=
  [⟨"B2W", 0x00000001, 0xFC00FFCF⟩,
   ⟨"W2B", 0x00000002, 0xFC00FFCF⟩,
   ⟨"MPRIME", 0x00000003, 0xFFFFFFCF⟩,
   ⟨"RCALC", 0x00000004, 0xFFFFFFCF⟩,
   ⟨"ZERO", 0x00000005, 0xFFFFFFFF⟩]

/-- R83: the mnemonic of a command, letter for letter as in the table. -/
def mnemonic : Instr → String
  | .b2w _ _ => "B2W"
  | .w2b _ _ => "W2B"
  | .mprime _ => "MPRIME"
  | .rcalc _ => "RCALC"
  | .zero => "ZERO"

end Sys2Proof
end

