-- ==== Sys2Proof/Config.lean ====
section
/-! DEFINITION. What is fixed for one MPMU but left open by the spec (spec/00_scope.md rule R7). -/

namespace Sys2Proof

/-- R7, D5: `BASE`, the bus address of the register window. OPEN in the spec, so it has no body here: no claim can
rest on a value of it. (The other open parameter, `LATENCY`, is no constant at all: R192 makes it nothing but the freedom
of where the completion step falls, which is the field `agenda` of State.) -/
opaque Config.base : Nat

end Sys2Proof
end

