-- ==== Sys2Proof/Machine/State.lean ====
section
/-! DEFINITION. The state of the MPMU (spec/10_state.md), the turns and bus transactions of its environment, and the reasons
a step could stop. Plain data throughout. -/

namespace Sys2Proof.Machine

/-- R27: the sequencer state `SEQ`. -/
inductive SeqState where
  | idle
  | busy
deriving DecidableEq, Repr

/-- R150: the result codes of a command. `ok`, `modulusZero`, `modulusEven` and `illegalCommand` are the spec's, the other
three the source's. The numbers stand in Machine/Flags.lean. -/
inductive ErrorCode where
  | ok
  | invalidBlockSize
  | bufferTooSmall
  | internal
  | modulusZero
  | modulusEven
  | illegalCommand
deriving DecidableEq, Repr

/-- R10, R52, R53: the number of bytes `n` of a host access, one of 1, 2, 4. -/
inductive Size where
  | byte
  | half
  | word
deriving DecidableEq, Repr

/-- R53: a value of an access's own size, so that `0 <= v < 2^(8n)` holds by its type. -/
inductive BusData where
  | byte (v : BitVec 8)
  | half (v : BitVec 16)
  | word (v : BitVec 32)
deriving DecidableEq, Repr

/-- R52, R53: one access of the host. `off` is the byte offset from `BASE`; it is an integer, so that every address a
platform could route here is covered, also those below the window (R56). -/
inductive Access where
  | read (off : Int) (n : Size)
  | write (off : Int) (d : BusData)
deriving DecidableEq, Repr

/-- R13, R52, R53: the outcome of a host access. A refused access returns no value (R54). -/
inductive Response where
  | okRead (v : BusData)
  | okWrite
  | busError
deriving DecidableEq, Repr

/-- R11, R60: one place of the total order: whose turn it is. -/
inductive Event where
  /-- The host performs an access. -/
  | host (a : Access)
  /-- The unit takes its completion step, if one is enabled (R31). -/
  | unit
  /-- Reset occurs (R180). -/
  | reset
deriving DecidableEq, Repr

/-- R20 to R29 and the table of spec/10_state.md section 1; the last two fields are the model's own (log 1, log 5). -/
structure State where
  /-- R20: `W[0..127]`, the operand word file; `W[0]` is the least significant word. -/
  w : Vector Word 128
  /-- R21: `RV[0..127]`, the R-value. -/
  rv : Vector Word 128
  /-- R22: `MP`, the reduction constant. -/
  mp : Word
  /-- R23: `B[0..511]`, the byte buffer; `B[0]` is the most significant byte. -/
  b : Vector Byte 512
  /-- R24: `CUR`, the command word of the most recently started command. -/
  cur : Word
  /-- R27: `SEQ`. -/
  seq : SeqState
  /-- R25: `DONE`. -/
  done : Bool
  /-- R25, R26, R150: `ERR`, 4 bits. -/
  err : BitVec 4
  /-- R29: `MPV`, `MP` was computed from the current `W`. -/
  mpv : Bool
  /-- R29: `RVV`, `RV` was computed from the current `W`. -/
  rvv : Bool
  /-- The model's own (log 1): the turns still to come, next first. R12: their order is free, so a claim for every state
  is a claim for every interleaving. -/
  agenda : List Event
  /-- The model's own (log 5): the outcome of the host's most recent access, as the host received it. It is no register:
  the unit records nothing of a refusal (R54) and no register read shows it. -/
  response : Option Response
deriving DecidableEq, Repr

/-- The reasons a step could end in a fault: none. R13: a host access is `OK` or a bus ERROR, a started command has one
result code, and "There is no third outcome". Nobody raises a fault, which is safe or unsafe for no claim (log 8). -/
inductive Fault where
deriving DecidableEq, Repr

/-- The reasons a step could be refused. -/
inductive Refusal where
  /-- Raised by an arm of `exec` whose command has no meaning yet; no arm does. Safe: nothing can be proved of what such a
  command does. -/
  | notModelled (mnemonic : String)
deriving DecidableEq, Repr

/-- R34, R180: after reset every register is zero and the unit idle. The two fields of the model's own are empty: no turn
is scheduled and the host has had no answer (log 1, log 5). -/
def State.reset : State where
  w := Vector.replicate 128 0
  rv := Vector.replicate 128 0
  mp := 0
  b := Vector.replicate 512 0
  cur := 0
  seq := .idle
  done := false
  err := 0
  mpv := false
  rvv := false
  agenda := []
  response := none

end Sys2Proof.Machine
end

