-- ==== Sys2Proof/Machine/Flags.lean ====
section
/-! DEFINITION. The result codes, the validity flags and the assembly of `STATUS` (spec/10_state.md rules R25, R29;
spec/60_exceptions.md rule R150). -/

namespace Sys2Proof.Machine

/-- R150: the code numbers. -/
def ErrorCode.code : ErrorCode → BitVec 4
  | .ok => 0
  | .invalidBlockSize => 1
  | .bufferTooSmall => 2
  | .internal => 3
  | .modulusZero => 4
  | .modulusEven => 5
  | .illegalCommand => 6

/-- R29: the word file has a new content, so neither result was computed from it. -/
def State.clearValid (s : State) : State := { s with mpv := false, rvv := false }

/-- R25: `BUSY` is 1 while `SEQ = BUSY`. -/
def SeqState.busyBit : SeqState → Bool
  | .idle => false
  | .busy => true

/-- R25: `STATUS`, most significant field first: bits 31:10 are 0, `RVV`, `MPV`, `ERR`, bits 3:2 are 0, `DONE`, `BUSY`. -/
def State.status (s : State) : Word :=
  (0 : BitVec 22) ++ BitVec.ofBool s.rvv ++ BitVec.ofBool s.mpv ++ s.err ++ (0 : BitVec 2) ++ BitVec.ofBool s.done
    ++ BitVec.ofBool s.seq.busyBit

end Sys2Proof.Machine
end

