-- ==== Sys2Proof/Machine/Operands.lean ====
section
/-! DEFINITION. The operands of the commands: widths, the integers that a word array and a byte block denote, and the
conversions between them (spec/00_scope.md rules R6, R9; spec/41_marshal.md; spec/40_montgomery.md). -/

namespace Sys2Proof

/-- R6: the bits of a key width. -/
def Width.bits : Width → Nat
  | .w1024 => 1024
  | .w2048 => 2048
  | .w4096 => 4096

/-- R6: `block_size = bits/8`, written `bs(WSEL)`. -/
def Width.blockSize (k : Width) : Nat := k.bits / 8

/-- R6: `word_count = bits/32`, written `wc(WSEL)`. -/
def Width.wordCount (k : Width) : Nat := k.bits / 32

/-- R6, R82: the width a selector names; selector 3 names none. -/
def Wsel.width : Wsel → Option Width
  | .w1024 => some .w1024
  | .w2048 => some .w2048
  | .w4096 => some .w4096
  | .unsupported => none

/-- R7: no block is larger than the byte buffer. (Stands here for the bounds of the register reads below.) -/
theorem Width.blockSize_le (k : Width) : k.blockSize ≤ 512 := by cases k <;> decide

end Sys2Proof

namespace Sys2Proof.Machine

/-- R9: `val(X, wc)`, word 0 the least significant. -/
def val (x : Vector Word 128) (wc : Nat) : Nat :=
  (x.toList.take wc).foldr (fun v acc => v.toNat + 2 ^ 32 * acc) 0

/-- R9: `valB(B, bs)`, byte 0 the most significant. -/
def valB (b : Vector Byte 512) (bs : Nat) : Nat :=
  (b.toList.take bs).foldl (fun acc v => acc * 256 + v.toNat) 0

/-- A list with `f i` in the place of every entry `i` below `n`, the first entry being number `i0`. -/
def overwriteFrom {α : Type} (n : Nat) (f : Nat → α) : Nat → List α → List α
  | _, [] => []
  | i0, x :: xs => (if i0 < n then f i0 else x) :: overwriteFrom n f (i0 + 1) xs

/-- The size of a register file does not change. (Stands here for the definition below.) -/
theorem overwriteFrom_length {α : Type} (n : Nat) (f : Nat → α) :
    ∀ (i0 : Nat) (l : List α), (overwriteFrom n f i0 l).length = l.length
  | _, [] => rfl
  | i0, _ :: xs => congrArg (· + 1) (overwriteFrom_length n f (i0 + 1) xs)

/-- R20, R23, R122: write entries `0..n-1` of a register file, all together, and leave the others. -/
def overwriteLow {α : Type} {m : Nat} (n : Nat) (f : Nat → α) (v : Vector α m) : Vector α m :=
  ⟨(overwriteFrom n f 0 v.toList).toArray, by simp [overwriteFrom_length]⟩

/-- R121: byte `j` of the block read in reverse, `B[bs-1-j]`. -/
def reversedByte (k : Width) (b : Vector Byte 512) (j : Nat) : Byte :=
  b[k.blockSize - 1 - j]'(by have := k.blockSize_le; omega)

/-- R121, R62 (c): word `i` of the block: four bytes of the reversed block, the first of them in bits 7:0. -/
def wordOfBlock (k : Width) (b : Vector Byte 512) (i : Nat) : Word :=
  reversedByte k b (4 * i + 3) ++ reversedByte k b (4 * i + 2) ++ reversedByte k b (4 * i + 1) ++ reversedByte k b (4 * i)

/-- R121: the word file after a block was converted; words `wc..127` stay (R122). -/
def wordsOfBlock (k : Width) (b : Vector Byte 512) (w : Vector Word 128) : Vector Word 128 :=
  overwriteLow k.wordCount (wordOfBlock k b) w

/-- R124: the byte that goes to `B[j]`, for `j` below the block size: with `m = bs-1-j`, byte `m mod 4` of `W[m div 4]`,
byte 0 being bits 7:0. -/
def byteOfWords (k : Width) (w : Vector Word 128) (j : Nat) : Byte :=
  (w[(k.blockSize - 1 - j) / 4]'(by have := k.blockSize_le; omega)).extractLsb' (8 * ((k.blockSize - 1 - j) % 4)) 8

/-- R124: the byte buffer after a word array was converted; bytes `bs..511` stay (R122). -/
def blockOfWords (k : Width) (w : Vector Word 128) (b : Vector Byte 512) : Vector Byte 512 :=
  overwriteLow k.blockSize (byteOfWords k w) b

/-- R103: one step of the iteration for the inverse, `x * (2 - n0 * x)` modulo 2^32. -/
def inverseStep (n0 x : Word) : Word := x * (2 - n0 * x)

/-- R103: `x = 1`, improved `k` times. -/
def inverseAfter (n0 : Word) : Nat → Word
  | 0 => 1
  | k + 1 => inverseStep n0 (inverseAfter n0 k)

/-- R101 by the iteration of R103: the negated inverse of an odd word modulo 2^32. PRESUMED as an algorithm (G2, log 9);
that it has the value R101 defines is `negInverse_mul` in Laws/Montgomery.lean. -/
def negInverse (n0 : Word) : Word := -(inverseAfter n0 5)

/-- R104: the R-value of a modulus at a word count, `2^(64*wc) mod n`. -/
def rValue (wc n : Nat) : Nat := 2 ^ (64 * wc) % n

/-- R104: word `i` of an integer, `(r / 2^(32*i)) mod 2^32`. -/
def wordOfNat (r i : Nat) : Word := BitVec.ofNat 32 (r / 2 ^ (32 * i))

/-- R104: the result file after `r` was stored over `wc` words; words `wc..127` stay (R122). -/
def wordsOfNat (wc r : Nat) (rv : Vector Word 128) : Vector Word 128 :=
  overwriteLow wc (wordOfNat r) rv

end Sys2Proof.Machine
end

