-- ==== Sys2Proof/Machine/Ops.lean ====
section
/-! DEFINITION. The named operations every agent is made of: command start, completion (with or without an error), the
register window with its reads and writes, host accesses, and the reset event (spec/10_state.md rules R30, R31;
spec/20_memory.md; spec/60_exceptions.md rule R156; spec/70_reset_and_hazards.md rule R180). -/

namespace Sys2Proof.Machine

/-! ### Command start and completion -/

/-- R30: command start. It is also all there is of a return from an error (R157): the next start sets `ERR` back to 0. -/
def State.startCommand (v : Word) (s : State) : State :=
  { s with cur := v, seq := .busy, done := false, err := 0 }

/-- R31, R156: the part every completion step has: `ERR <- code`, `DONE <- 1`, `SEQ <- IDLE`. -/
def State.complete (code : ErrorCode) (s : State) : State :=
  { s with err := code.code, done := true, seq := .idle }

/-- R156: completion with an error, the MPMU's exception entry: nothing changes but `ERR`, `DONE` and `SEQ`. -/
def fail (code : ErrorCode) (s : State) : Host.Outcome State Fault Refusal := .next (s.complete code)

/-- R31: completion with `OK`, of a state to which the command's updates have been applied. -/
def succeed (s : State) : Host.Outcome State Fault Refusal := .next (s.complete .ok)

/-- R84 step 2, R82, R153: the width test that stands before the own rule of the four commands that take a width. -/
def withWidth (ws : Wsel) (s : State) (body : Width → Host.Outcome State Fault Refusal) :
    Host.Outcome State Fault Refusal :=
  match ws.width with
  | none => fail .internal s
  | some k => body k

/-! ### The register window -/

/-- R50: the registers of the window. -/
inductive Reg where
  | cmd
  | status
  | mp
  | w (i : Fin 128)
  | rv (i : Fin 128)
  | b (j : Fin 512)
deriving DecidableEq, Repr

/-- R50: the offset of a register. -/
def Reg.offset : Reg → Nat
  | .cmd => 0x000
  | .status => 0x004
  | .mp => 0x008
  | .w i => 0x200 + 4 * i.val
  | .rv i => 0x400 + 4 * i.val
  | .b j => 0x600 + j.val

/-- R50, R55: the one access size of a register. -/
def Reg.size : Reg → Size
  | .cmd => .word
  | .status => .word
  | .mp => .word
  | .w _ => .word
  | .rv _ => .word
  | .b _ => .byte

/-- R50, R53: the registers the host has write rights on. -/
def Reg.writable : Reg → Bool
  | .cmd => true
  | .status => false
  | .mp => false
  | .w _ => true
  | .rv _ => false
  | .b _ => true

/-- R58: the registers that can be read while a command is in flight. -/
def Reg.readableBusy : Reg → Bool
  | .cmd => true
  | .status => true
  | .mp => false
  | .w _ => false
  | .rv _ => false
  | .b _ => false

/-- R53: the size of a value on the bus. -/
def BusData.size : BusData → Size
  | .byte _ => .byte
  | .half _ => .half
  | .word _ => .word

/-- R50, R56: the register at an offset of the window; none at an unmapped or misaligned one. -/
def regAt (off : Nat) : Option Reg :=
  if off = 0x000 then some .cmd
  else if off = 0x004 then some .status
  else if off = 0x008 then some .mp
  else if h : 0x200 ≤ off ∧ off < 0x400 ∧ off % 4 = 0 then some (.w ⟨(off - 0x200) / 4, by omega⟩)
  else if h : 0x400 ≤ off ∧ off < 0x600 ∧ off % 4 = 0 then some (.rv ⟨(off - 0x400) / 4, by omega⟩)
  else if h : 0x600 ≤ off ∧ off < 0x800 then some (.b ⟨off - 0x600, by omega⟩)
  else none

/-- R52, R53, R55: the register that an offset and a size name whole, at its access size; none if they name none. -/
def target (off : Int) (n : Size) : Option Reg :=
  match off with
  | .ofNat k =>
    match regAt k with
    | some r => if r.size = n then some r else none
    | none => none
  | .negSucc _ => none

/-- R7, R50: the offset of a bus address from `BASE`. -/
def busOffset (addr : Nat) : Int := (addr : Int) - (Config.base : Int)

/-- R52: the current content of a register, as the bus carries it (R63: one value, no lanes). -/
def readReg (s : State) : Reg → BusData
  | .cmd => .word s.cur
  | .status => .word s.status
  | .mp => .word s.mp
  | .w i => .word s.w[i]
  | .rv i => .word s.rv[i]
  | .b j => .byte s.b[j]

/-- R53, R29: a host write to `W[i]` stores the word and clears `MPV` and `RVV`, whatever the value. -/
def State.writeW (i : Fin 128) (v : Word) (s : State) : State := { s with w := s.w.set i v }.clearValid

/-- R53: a host write to `B[j]` stores the byte and does nothing else. -/
def State.writeB (j : Fin 512) (v : Byte) (s : State) : State := { s with b := s.b.set j v }

/-- R53, R57: the effect of a write to a register, for the three kinds that have write rights and a value of their size;
none for every other pair. -/
def writeReg (r : Reg) (d : BusData) (s : State) : Option State :=
  match r, d with
  | .cmd, .word v => some (s.startCommand v)
  | .w i, .word v => some (s.writeW i v)
  | .b j, .byte v => some (s.writeB j v)
  | _, _ => none

/-- R52: `HostRead(off, n)`. R58: while a command is in flight only `CMD` and `STATUS` answer. -/
def hostRead (s : State) (off : Int) (n : Size) : Response :=
  match target off n with
  | none => .busError
  | some r => if s.seq = .idle ∨ r.readableBusy = true then .okRead (readReg s r) else .busError

/-- R53: `HostWrite(off, n, v)`: the state it leaves when it is `OK`, none for a bus ERROR. -/
def hostWrite (s : State) (off : Int) (d : BusData) : Option State :=
  match target off d.size with
  | none => none
  | some r => if s.seq = .idle then writeReg r d s else none

/-- R11, R54: the host's turn: the access takes effect, or is refused and changes nothing; the host is told which. -/
def hostAccess (a : Access) (s : State) : State :=
  match a with
  | .read off n => { s with response := some (hostRead s off n) }
  | .write off d =>
    match hostWrite s off d with
    | some t => { t with response := some .okWrite }
    | none => { s with response := some .busError }

/-! ### Reset, and the latch the host of this package uses -/

/-- R180, R181: the reset event. Every register takes its reset value, in any state; a command in flight is cancelled. The
turns to come and the host's last answer are the environment's and stay (log 14). -/
def resetEvent (s : State) : State := { State.reset with agenda := s.agenda, response := s.response }

/-- Log 10: a command word latched as R30 latches it, with the unit's turn next. -/
def State.latched (v : Word) (s : State) : State :=
  { s.startCommand v with agenda := .unit :: s.agenda }

end Sys2Proof.Machine
end

