-- ==== Sys2Proof/Machine/Housekeeping.lean ====
section
/-! DEFINITION. Housekeeping: `ZERO`, and the execution of a word that spells no command (spec/42_housekeeping.md). -/

namespace Sys2Proof.Machine

/-- R140: every data register to zero, whatever the width, and the flags that guard them. -/
def State.zeroData (s : State) : State :=
  { s with
    w := Vector.replicate 128 0
    rv := Vector.replicate 128 0
    mp := 0
    b := Vector.replicate 512 0 }.clearValid

/-- R140: `ZERO`. -/
def execZero (s : State) : Host.Outcome State Fault Refusal := succeed s.zeroData

/-- R142: an illegal command word completes with `IllegalCommand` and reads and writes nothing else. -/
def execIllegal (s : State) : Host.Outcome State Fault Refusal := fail .illegalCommand s

end Sys2Proof.Machine
end

