-- ==== Sys2Proof/Machine/Marshal.lean ====
section
/-! DEFINITION. The marshaling commands (spec/41_marshal.md). -/

namespace Sys2Proof.Machine

/-- R121: `B2W wX, len`. The declared input length must be the block size exactly (R126); the word file has a new content,
so `MPV` and `RVV` are cleared (R29). -/
def execB2w (ws : Wsel) (len : Nat) (s : State) : Host.Outcome State Fault Refusal :=
  withWidth ws s fun k =>
    if len = k.blockSize then succeed { s with w := wordsOfBlock k s.b s.w }.clearValid
    else fail .invalidBlockSize s

/-- R124: `W2B wX, cap`. A declared capacity below the block size fails (R126); a larger one is accepted and exactly
`bs` bytes are written. -/
def execW2b (ws : Wsel) (len : Nat) (s : State) : Host.Outcome State Fault Refusal :=
  withWidth ws s fun k =>
    if len < k.blockSize then fail .bufferTooSmall s
    else succeed { s with b := blockOfWords k s.w s.b }

end Sys2Proof.Machine
end

