-- ==== Sys2Proof/Machine/Montgomery.lean ====
section
/-! DEFINITION. The Montgomery-parameter commands (spec/40_montgomery.md). -/

namespace Sys2Proof.Machine

/-- R101: `MPRIME wX`. Reads `W[0]` alone; writes `MP` and `MPV`; fails with `ModulusEven` when bit 0 of `W[0]` is 0. -/
def execMprime (ws : Wsel) (s : State) : Host.Outcome State Fault Refusal :=
  withWidth ws s fun _ =>
    if s.w[0].getLsbD 0 then succeed { s with mp := negInverse s.w[0], mpv := true }
    else fail .modulusEven s

/-- R104: `RCALC wX`. Reads `W[0..wc-1]`; writes `RV[0..wc-1]` and `RVV`; fails with `ModulusZero` when the modulus is 0. -/
def execRcalc (ws : Wsel) (s : State) : Host.Outcome State Fault Refusal :=
  withWidth ws s fun k =>
    if val s.w k.wordCount = 0 then fail .modulusZero s
    else
      succeed { s with rv := wordsOfNat k.wordCount (rValue k.wordCount (val s.w k.wordCount)) s.rv, rvv := true }

end Sys2Proof.Machine
end

