-- ==== Sys2Proof/Machine/Dispatch.lean ====
section
/-! DEFINITION. R84: the meaning of each command, one arm per constructor of Instr. -/

namespace Sys2Proof.Machine

def exec (i : Instr) (s : State) : Host.Outcome State Fault Refusal :=
  match i with
  | .b2w ws len => Sys2Proof.Machine.execB2w ws len s
  | .w2b ws len => Sys2Proof.Machine.execW2b ws len s
  | .mprime ws => Sys2Proof.Machine.execMprime ws s
  | .rcalc ws => Sys2Proof.Machine.execRcalc ws s
  | .zero => Sys2Proof.Machine.execZero s

end Sys2Proof.Machine
end

