-- ==== Sys2Proof/Machine/Agents.lean ====
section
/-! DEFINITION. The three agents and their turns (spec/00_scope.md rules R11, R12; spec/20_memory.md rule R60). -/

namespace Sys2Proof.Machine

/-- R31: the completion step: the latched word is decoded and performed, all at once; a word that spells no command
completes with `IllegalCommand` (R142). -/
def completion (s : State) : Host.Outcome State Fault Refusal :=
  match decode s.cur with
  | .ok i => exec i s
  | .error _ => execIllegal s

/-- R11, R31: the unit's turn. Its one step is enabled only while `SEQ = BUSY`; an idle unit starts nothing by itself
(R182) and the turn passes (log 3). -/
def unitTurn (s : State) : Host.Outcome State Fault Refusal :=
  match s.seq with
  | .busy => completion s
  | .idle => .next s

/-- R60: the next step of the total order. When no turn is scheduled the unit has it, so that every started command
completes (R189, log 7). -/
def takeTurn (s : State) : Host.Outcome State Fault Refusal :=
  match s.agenda with
  | [] => unitTurn s
  | .host a :: rest => .next (hostAccess a { s with agenda := rest })
  | .unit :: rest => unitTurn { s with agenda := rest }
  | .reset :: rest => .next (resetEvent { s with agenda := rest })

end Sys2Proof.Machine
end

