-- ==== Sys2Proof/Machine/Step.lean ====
section
/-! DEFINITION. One step of the machine, and where the host of this package places a command word. -/

namespace Sys2Proof.Machine

/-- R11, R60: one step of one agent. -/
def step (s : State) : Host.Outcome State Fault Refusal := takeTurn s

/-- Log 10: the MPMU fetches no program (R2, R28); the place of its next command is `CUR`, latched by a host write to `CMD`.
`s` with the table word latched there and the unit's turn next, so that the very next step performs it. -/
def State.withFetchWord (s : State) (nbits w : Nat) : State := s.latched (tableWord nbits w)

end Sys2Proof.Machine
end

