-- ==== Sys2Proof/Machine/Script.lean ====
section
/-! DEFINITION. The written form of commands and of host scripts (spec/30_encoding.md rules R88, R89). -/

namespace Sys2Proof

/-- R88: the width operands. -/
def Wsel.written : Wsel → String
  | .w1024 => "w1024"
  | .w2048 => "w2048"
  | .w4096 => "w4096"
  | .unsupported => "w?"

/-- R88: the written form of a command; lengths are decimal. -/
def Instr.written : Instr → String
  | .b2w ws len => "B2W " ++ ws.written ++ ", " ++ toString len
  | .w2b ws len => "W2B " ++ ws.written ++ ", " ++ toString len
  | .mprime ws => "MPRIME " ++ ws.written
  | .rcalc ws => "RCALC " ++ ws.written
  | .zero => "ZERO"

/-- R8: a word as 8 hexadecimal digits, most significant first. -/
def hexDigits (c : Word) : String :=
  String.ofList ((List.range 8).map fun j => (Nat.digitChar (c.toNat / 16 ^ (7 - j) % 16)).toUpper)

/-- R88: what a printer writes for a command word; `.cmd` and the literal word where it spells no command. -/
def writtenWord (c : Word) : String :=
  match decode c with
  | .ok i => i.written
  | .error _ => ".cmd 0x" ++ hexDigits c

/-- R88, R89: the forms a host script may hand to `start`: a command, one of the two pseudo-commands (no length written),
or a literal word. -/
inductive Form where
  | command (i : Instr)
  | b2wBlock (k : Width)
  | w2bBlock (k : Width)
  | literal (c : Word)
deriving DecidableEq, Repr

/-- R6: the selector of a width. -/
def Width.selector : Width → Wsel
  | .w1024 => .w1024
  | .w2048 => .w2048
  | .w4096 => .w4096

/-- R88, R89: the command word of a form; the pseudo-commands stand for the exact-length commands. -/
def Form.word : Form → Word
  | .command i => encode i
  | .b2wBlock k => encode (.b2w k.selector k.blockSize)
  | .w2bBlock k => encode (.w2b k.selector k.blockSize)
  | .literal c => c

end Sys2Proof

namespace Sys2Proof.Machine

/-- R88: `wr32 off, value`. -/
def wr32 (off : Int) (v : BitVec 32) : Event := .host (.write off (.word v))

/-- R88: `wr8 off, value`. -/
def wr8 (off : Int) (v : BitVec 8) : Event := .host (.write off (.byte v))

/-- R88: `rd32 off`. -/
def rd32 (off : Int) : Event := .host (.read off .word)

/-- R88: `rd8 off`. -/
def rd8 (off : Int) : Event := .host (.read off .byte)

/-- R88: `start <command>` is short for `wr32 CMD, <word>`. -/
def start (f : Form) : Event := wr32 0x000 f.word

end Sys2Proof.Machine
end

