-- ==== Sys2Proof/Safety.lean ====
section
/-! DEFINITION. What counts as a run that went well and as a state the unit can be in, in the terms the
claims use; and the spec's own tests on a command word, said of its number. -/

namespace Sys2Proof.Safety

open Sys2Proof.Machine

/-- R11: is a turn an access of the host? -/
def isAccess : Event → Bool
  | .host _ => true
  | .unit => false
  | .reset => false

/-- R193: a run is over when the host has issued its last access and the unit is idle. Turns of the unit and of reset may be
left: the rule does not ask for their absence. -/
abbrev RunOver (s : State) : Prop := (∀ e ∈ s.agenda, isAccess e = false) ∧ s.seq = .idle

/-- R20 to R27, R29, R193: the values of all registers of spec/10_state.md section 1, without the model's own two fields. -/
structure Registers where
  w : Vector Word 128
  rv : Vector Word 128
  mp : Word
  b : Vector Byte 512
  cur : Word
  seq : SeqState
  done : Bool
  err : BitVec 4
  mpv : Bool
  rvv : Bool
deriving DecidableEq, Repr

/-- R193: the registers of a state. -/
def registers (s : State) : Registers :=
  { w := s.w, rv := s.rv, mp := s.mp, b := s.b, cur := s.cur, seq := s.seq, done := s.done, err := s.err, mpv := s.mpv,
    rvv := s.rvv }

/-- R193: the final state of the unit, once the run is over; none before that. -/
def finalState (s : State) : Option Registers := if RunOver s then some (registers s) else none

/-- U14: the host's most recent access was refused. A claim about a host program treats this as the program going wrong. -/
abbrev AccessRefused (s : State) : Prop := s.response = some .busError

/-- R185, R140: no data register holds anything. -/
abbrev Zeroized (s : State) : Prop :=
  s.w = Vector.replicate 128 0 ∧ s.rv = Vector.replicate 128 0 ∧ s.mp = 0 ∧ s.b = Vector.replicate 512 0

/-- Two states with the same data registers and validity flags: what a command with an error leaves (R156). -/
abbrev SameData (s t : State) : Prop :=
  t.w = s.w ∧ t.rv = s.rv ∧ t.mp = s.mp ∧ t.b = s.b ∧ t.mpv = s.mpv ∧ t.rvv = s.rvv

/-- R150: the result codes that a command word may complete with, as the table's column "raised by" gives them. -/
def reportable (c : Word) : List ErrorCode :=
  match decode c with
  | .error _ => [.illegalCommand]
  | .ok (.b2w _ _) => [.ok, .internal, .invalidBlockSize]
  | .ok (.w2b _ _) => [.ok, .internal, .bufferTooSmall]
  | .ok (.mprime _) => [.ok, .internal, .modulusEven]
  | .ok (.rcalc _) => [.ok, .internal, .modulusZero]
  | .ok .zero => [.ok]

/-! ### The word's fields as numbers, and the rules of R84 and R85 said of them (not through the decoder) -/

/-- R80, R81: `OP = c[3:0]`. -/
abbrev opOf (c : Word) : Nat := c.toNat % 16

/-- R80, R81: `WSEL = c[5:4]`. -/
abbrev wselOf (c : Word) : Nat := c.toNat / 16 % 4

/-- R80, R81: `LEN = c[25:16]`. -/
abbrev lenOf (c : Word) : Nat := c.toNat / 2 ^ 16 % 2 ^ 10

/-- R85: the words that spell no command. -/
def IllegalWord (c : Word) : Prop :=
  c.toNat / 2 ^ 26 ≠ 0 ∨ c.toNat / 2 ^ 6 % 2 ^ 10 ≠ 0 ∨ opOf c = 0 ∨ 6 ≤ opOf c ∨
  ((opOf c = 3 ∨ opOf c = 4) ∧ lenOf c ≠ 0) ∨ (opOf c = 5 ∧ (lenOf c ≠ 0 ∨ wselOf c ≠ 0))

/-- R155: `code` is the first that applies, in the order IllegalCommand, Internal, the command's own error, and `OK` when
none does. R6: `bs = 128 * 2^WSEL`, `wc = 32 * 2^WSEL` for the three widths. -/
structure FirstError (c : Word) (s : State) (code : BitVec 4) : Prop where
  illegal : IllegalWord c → code = 6
  internal : ¬ IllegalWord c → opOf c ≠ 5 → wselOf c = 3 → code = 3
  b2w : ¬ IllegalWord c → opOf c = 1 → wselOf c ≠ 3 → code = if lenOf c = 128 * 2 ^ wselOf c then 0 else 1
  w2b : ¬ IllegalWord c → opOf c = 2 → wselOf c ≠ 3 → code = if lenOf c < 128 * 2 ^ wselOf c then 2 else 0
  mprime : ¬ IllegalWord c → opOf c = 3 → wselOf c ≠ 3 → code = if s.w[0].toNat % 2 = 0 then 5 else 0
  rcalc : ¬ IllegalWord c → opOf c = 4 → wselOf c ≠ 3 → code = if val s.w (32 * 2 ^ wselOf c) = 0 then 4 else 0
  zero : ¬ IllegalWord c → opOf c = 5 → code = 0

/-- R122: two states that agree in everything but the storage beyond a width: `W[wc..127]`, `RV[wc..127]`, `B[bs..511]`. -/
structure AgreeBelow (k : Width) (s t : State) : Prop where
  w : ∀ i (h : i < 128), i < k.wordCount → s.w[i] = t.w[i]
  rv : ∀ i (h : i < 128), i < k.wordCount → s.rv[i] = t.rv[i]
  b : ∀ j (h : j < 512), j < k.blockSize → s.b[j] = t.b[j]
  mp : s.mp = t.mp
  cur : s.cur = t.cur
  seq : s.seq = t.seq
  done : s.done = t.done
  err : s.err = t.err
  mpv : s.mpv = t.mpv
  rvv : s.rvv = t.rvv

/-- R122: the storage beyond a width is the same in both states. -/
abbrev SameAbove (k : Width) (s t : State) : Prop :=
  (∀ i (h : i < 128), k.wordCount ≤ i → t.w[i] = s.w[i] ∧ t.rv[i] = s.rv[i]) ∧
  (∀ j (h : j < 512), k.blockSize ≤ j → t.b[j] = s.b[j])

/-- What every step keeps of the control state (R24 to R27, R30, R31, R107, R150). -/
structure ControlInv (s : State) : Prop where
  /-- R25: `BUSY` and `DONE` are never both 1. -/
  busy_not_done : s.seq = .busy → s.done = false
  /-- R25, R26: without a completed command `ERR` is 0. -/
  err_zero_until_done : s.done = false → s.err = 0
  /-- R26, R150: a completed command's `ERR` is a code that the word in `CUR` can complete with. -/
  err_fits_command : s.done = true → ∃ e ∈ reportable s.cur, s.err = e.code
  /-- R24, R29, R107: idle with `DONE = 0`, no command was started since reset, so `CUR`, `MP`, `RV` and the flags are 0. -/
  untouched_before_first : s.seq = .idle → s.done = false →
    s.cur = 0 ∧ s.mp = 0 ∧ s.rv = Vector.replicate 128 0 ∧ s.mpv = false ∧ s.rvv = false

/-- R29: what the validity flags promise of the results. -/
structure DerivedInv (s : State) : Prop where
  /-- R29, R101: with `MPV = 1`, `MP` is the negated inverse of the lowest word that `W` holds now. -/
  mp_of_current_w : s.mpv = true → s.mp.toNat * s.w[0].toNat % 2 ^ 32 = 2 ^ 32 - 1
  /-- R29, R104: with `RVV = 1`, `RV` is the R-value of what `W` holds now, at the width of some `RCALC` (the flag does not
  record which). -/
  rv_of_current_w : s.rvv = true → ∃ k : Width, val s.w k.wordCount ≠ 0 ∧
    val s.rv k.wordCount = 2 ^ (64 * k.wordCount) % val s.w k.wordCount

end Sys2Proof.Safety
end

