-- ==== Sys2Proof/Certificates/Slice0/Obligations.lean ====
section
/-! DEFINITION. The statements for the provers, in the order of the spec's files: encoding, state and steps, host accesses,
the five commands, errors, reset and liveness, invariants, turns. -/

open Sys2Proof Sys2Proof.Machine Sys2Proof.Safety

/-! ### Encoding (spec/30_encoding.md) -/

/-- R80, R83, R88: no bit of an encoding is dropped. -/
def Obligations.DecodeOfEncodeReturnsTheCommand : Prop :=
  ∀ i : Instr, i.wellFormed = true → decode (encode i) = .ok i

/-- R80, R81, R85: a word that decodes has no bit beside those of its command. -/
def Obligations.EncodeOfDecodeReturnsTheWord : Prop :=
  ∀ (c : Word) (i : Instr), decode c = .ok i → i.wellFormed = true ∧ encode i = c

/-- R83, R143: the decoder accepts exactly the words of the match and mask table, each under its own row's mnemonic, and no
word spells two rows. -/
def Obligations.DecoderAcceptsExactlyTheOpcodeMap : Prop :=
  (∀ c : Word, (∃ i, decode c = .ok i) ↔ ∃ r ∈ opcodeMap, r.spells c = true) ∧
  (∀ (c : Word) (i : Instr), decode c = .ok i → ∃ r ∈ opcodeMap, r.spells c = true ∧ r.mnemonic = mnemonic i) ∧
  (∀ (c : Word), ∀ r ∈ opcodeMap, ∀ r' ∈ opcodeMap, r.spells c = true → r'.spells c = true → r = r')

/-- R85, R142: which words are illegal, that `CMD` accepts them, and that they complete with `IllegalCommand` and no other
effect, in the same two steps as any command. -/
def Obligations.IllegalWordsCompleteWithIllegalCommand : Prop :=
  (∀ c : Word, IllegalWord c ↔ ∃ e, decode c = .error e) ∧
  IllegalWord 0x00000000 ∧ IllegalWord 0xFFFFFFFF ∧
  ∀ (c : Word) (s : State) (rest : List Event), IllegalWord c → s.seq = .idle →
    s.agenda = .host (.write 0x000 (.word c)) :: .unit :: rest →
    step s = .next { s with cur := c, seq := .busy, done := false, err := 0, agenda := .unit :: rest, response := some .okWrite } ∧
    step { s with cur := c, seq := .busy, done := false, err := 0, agenda := .unit :: rest, response := some .okWrite } =
      .next { s with cur := c, seq := .idle, done := true, err := 6, agenda := rest, response := some .okWrite }

/-- R90: the encodings of the forms a host normally uses, both ways, with the outcomes the table notes beside three of them;
and the arithmetic form of every command's word. -/
def Obligations.CommandWordsOfTheTable : Prop :=
  (∀ p ∈ ([(.b2w .w1024 128, 0x00800001), (.b2w .w2048 256, 0x01000011), (.b2w .w4096 512, 0x02000021),
           (.w2b .w1024 128, 0x00800002), (.w2b .w2048 256, 0x01000012), (.w2b .w4096 512, 0x02000022),
           (.mprime .w1024, 0x00000003), (.mprime .w2048, 0x00000013), (.mprime .w4096, 0x00000023),
           (.rcalc .w1024, 0x00000004), (.rcalc .w2048, 0x00000014), (.rcalc .w4096, 0x00000024),
           (.zero, 0x00000005), (.b2w .unsupported 128, 0x00800031), (.b2w .w1024 127, 0x007F0001),
           (.w2b .w1024 1023, 0x03FF0002)] : List (Instr × Word)),
    encode p.1 = p.2 ∧ decode p.2 = .ok p.1) ∧
  (∀ (ws : Wsel) (len : Nat), len < 1024 →
    (encode (.b2w ws len)).toNat = len * 2 ^ 16 + (wselBits ws).toNat * 2 ^ 4 + 1 ∧
    (encode (.w2b ws len)).toNat = len * 2 ^ 16 + (wselBits ws).toNat * 2 ^ 4 + 2 ∧
    (encode (.mprime ws)).toNat = (wselBits ws).toNat * 2 ^ 4 + 3 ∧
    (encode (.rcalc ws)).toNat = (wselBits ws).toNat * 2 ^ 4 + 4) ∧
  ∀ s : State,
    exec (.b2w .unsupported 128) s = .next { s with err := 3, done := true, seq := .idle } ∧
    exec (.b2w .w1024 127) s = .next { s with err := 1, done := true, seq := .idle } ∧
    ∃ t, exec (.w2b .w1024 1023) s = .next t ∧ t.err = 0

/-- R89: the two pseudo-commands are abbreviations of the exact-length forms, and those always pass the length check. -/
def Obligations.PseudoCommandsPassTheLengthCheck : Prop :=
  ∀ k : Width,
    (Form.b2wBlock k).word = encode (.b2w k.selector k.blockSize) ∧
    (Form.w2bBlock k).word = encode (.w2b k.selector k.blockSize) ∧
    ∀ s : State, ∃ t u, exec (.b2w k.selector k.blockSize) s = .next t ∧ t.err = 0 ∧
      exec (.w2b k.selector k.blockSize) s = .next u ∧ u.err = 0

/-- R6: the widths, the two sizes each fixes, and the selector numbers. -/
def Obligations.WidthsFixTheBufferSizes : Prop :=
  (∀ k : Width, k.blockSize = k.bits / 8 ∧ k.wordCount = k.bits / 32 ∧ k.wordCount * 32 = k.blockSize * 8) ∧
  (wselOfBits 0).width = some .w1024 ∧ (wselOfBits 1).width = some .w2048 ∧ (wselOfBits 2).width = some .w4096 ∧
  (wselOfBits 3).width = none ∧
  Width.w1024.bits = 1024 ∧ Width.w2048.bits = 2048 ∧ Width.w4096.bits = 4096 ∧
  Width.w1024.blockSize = 128 ∧ Width.w2048.blockSize = 256 ∧ Width.w4096.blockSize = 512 ∧
  Width.w1024.wordCount = 32 ∧ Width.w2048.wordCount = 64 ∧ Width.w4096.wordCount = 128

/-! ### State and steps (spec/10_state.md) -/

/-- R31, R84: when the unit has its turn and the latched word decodes, the step is the command's meaning, at the state whose
turn has been taken off the agenda; a busy unit has its turn also when the agenda is empty. The last clause says the same of
a word placed by `withFetchWord` (the model's own device, log 10). -/
def Obligations.StepRunsTheLatchedCommand : Prop :=
  (∀ (s : State) (i : Instr) (rest : List Event), s.seq = .busy → s.agenda = .unit :: rest → decode s.cur = .ok i →
    step s = exec i { s with agenda := rest }) ∧
  (∀ (s : State) (i : Instr), s.seq = .busy → s.agenda = [] → decode s.cur = .ok i → step s = exec i s) ∧
  (∀ (s : State) (w : Nat) (i : Instr), decodeTableWord 32 w = some i →
    step (s.withFetchWord 32 w) =
      exec i { s with cur := BitVec.ofNat 32 w, seq := .busy, done := false, err := 0 })

/-- R13, R189: there is no third outcome: every command, and every step of every agent, answers a next state. -/
def Obligations.EveryStepAnswersANextState : Prop :=
  (∀ (i : Instr) (s : State), ∃ t, exec i s = .next t ∧ t.seq = .idle ∧ t.done = true) ∧ ∀ s : State, ∃ t, step s = .next t

/-- R30: command start. Every 32-bit value is accepted while idle; nothing but `CUR`, `SEQ`, `DONE`, `ERR` changes; while
busy the write is refused and changes nothing. (The agenda loses the turn and the host gets its answer.) -/
def Obligations.CommandStartLatchesEveryWord : Prop :=
  ∀ (s : State) (v : Word) (rest : List Event), s.agenda = .host (.write 0x000 (.word v)) :: rest →
    (s.seq = .idle → step s = .next { s with
      cur := v, seq := .busy, done := false, err := 0, agenda := rest, response := some .okWrite }) ∧
    (s.seq = .busy → step s = .next { s with agenda := rest, response := some .busError })

/-- R156: a command that fails changes `ERR`, `DONE` and `SEQ` and nothing more: no data register, no validity flag, not
`CUR`. Stated of every busy state at the unit's turn; `t.err ≠ 0` says that the command failed. -/
def Obligations.FailedCommandChangesOnlyErrDoneSeq : Prop :=
  ∀ s t : State, s.seq = .busy → (s.agenda = [] ∨ ∃ rest, s.agenda = .unit :: rest) → step s = .next t → t.err ≠ 0 →
    t = { s with err := t.err, done := true, seq := .idle, agenda := s.agenda.tail }

/-- R27: `IDLE -> BUSY` only at a command start, `BUSY -> IDLE` only at a completion or at reset, over all steps. -/
def Obligations.SequencerMovesOnlyAtStartCompletionReset : Prop :=
  ∀ s t : State, step s = .next t →
    (s.seq = .idle → t.seq = .busy → ∃ v rest, s.agenda = .host (.write 0x000 (.word v)) :: rest ∧ t.cur = v) ∧
    (s.seq = .busy → t.seq = .idle →
      (∃ rest, s.agenda = .reset :: rest) ∨
      ((s.agenda = [] ∨ ∃ rest, s.agenda = .unit :: rest) ∧ t.done = true ∧
        ∃ e ∈ reportable s.cur, t.err = e.code))

/-- R29: what sets and what clears the validity flags, and that nothing else changes them, over all steps. -/
def Obligations.ValidityFlagsChangeOnlyAsListed : Prop :=
  (∀ (ws : Wsel) (s t : State), exec (.mprime ws) s = .next t → t.err = 0 → t.mpv = true ∧ t.rvv = s.rvv) ∧
  (∀ (ws : Wsel) (s t : State), exec (.rcalc ws) s = .next t → t.err = 0 → t.rvv = true ∧ t.mpv = s.mpv) ∧
  (∀ (ws : Wsel) (len : Nat) (s t : State), exec (.b2w ws len) s = .next t → t.err = 0 → t.mpv = false ∧ t.rvv = false) ∧
  (∀ s t : State, exec .zero s = .next t → t.mpv = false ∧ t.rvv = false) ∧
  (∀ (s t : State) (i : Fin 128) (v : Word) (rest : List Event),
    s.agenda = .host (.write (0x200 + 4 * (i.val : Int)) (.word v)) :: rest → step s = .next t →
    t.response = some .okWrite → t.mpv = false ∧ t.rvv = false) ∧
  (∀ s t : State, step s = .next t → t.mpv ≠ s.mpv ∨ t.rvv ≠ s.rvv →
    (∃ rest, s.agenda = .reset :: rest) ∨
    (s.seq = .idle ∧ ∃ (i : Fin 128) (v : Word) (rest : List Event),
      s.agenda = .host (.write (0x200 + 4 * (i.val : Int)) (.word v)) :: rest ∧ t.response = some .okWrite) ∨
    (s.seq = .busy ∧ (s.agenda = [] ∨ ∃ rest, s.agenda = .unit :: rest) ∧ t.err = 0 ∧
      ((∃ ws, decode s.cur = .ok (.mprime ws) ∧ t.rvv = s.rvv) ∨ (∃ ws, decode s.cur = .ok (.rcalc ws) ∧ t.mpv = s.mpv) ∨
       (∃ ws len, decode s.cur = .ok (.b2w ws len)) ∨ decode s.cur = .ok .zero)))

/-- R107, R21, R22: `MP` changes only by `MPRIME`, `ZERO` and reset, `RV` only by `RCALC`, `ZERO` and reset, over all steps:
the host cannot write them and nothing recomputes them when `W` changes. -/
def Obligations.ResultsChangeOnlyByTheirCommands : Prop :=
  ∀ s t : State, step s = .next t →
    (t.mp ≠ s.mp → (∃ rest, s.agenda = .reset :: rest) ∨
      (s.seq = .busy ∧ (s.agenda = [] ∨ ∃ rest, s.agenda = .unit :: rest) ∧
        ((∃ ws, decode s.cur = .ok (.mprime ws)) ∨ decode s.cur = .ok .zero))) ∧
    (t.rv ≠ s.rv → (∃ rest, s.agenda = .reset :: rest) ∨
      (s.seq = .busy ∧ (s.agenda = [] ∨ ∃ rest, s.agenda = .unit :: rest) ∧
        ((∃ ws, decode s.cur = .ok (.rcalc ws)) ∨ decode s.cur = .ok .zero)))

/-- R25: the layout of `STATUS`, that a 4-byte read at 0x004 answers it in both sequencer states and changes no register,
that `BUSY` and `DONE` are never both 1 and `ERR` is 0 while a command is in flight (in the states of the control invariant),
and that all of it is 0 after reset. -/
def Obligations.StatusReadsTheFlagsInTheirPlaces : Prop :=
  (∀ s : State, s.status.toNat =
    (if s.seq = .busy then 1 else 0) + (if s.done then 2 else 0) + s.err.toNat * 2 ^ 4 +
      (if s.mpv then 2 ^ 8 else 0) + (if s.rvv then 2 ^ 9 else 0)) ∧
  (∀ (s : State) (rest : List Event), s.agenda = .host (.read 0x004 .word) :: rest →
    step s = .next { s with agenda := rest, response := some (.okRead (.word s.status)) }) ∧
  (∀ s : State, ControlInv s → ¬ (s.status.getLsbD 0 = true ∧ s.status.getLsbD 1 = true) ∧ (s.seq = .busy → s.err = 0)) ∧
  State.reset.status = 0

/-! ### Host accesses (spec/20_memory.md) -/

/-- R7, R50: the window at `BASE`: where each register stands, that each offset reaches at most one, and what a whole-register
read while idle answers. -/
def Obligations.EachRegisterStandsAtItsOwnOffset : Prop :=
  (∀ off : Nat, busOffset (Config.base + off) = (off : Int)) ∧
  (∀ (r r' : Reg) (off : Int) (n : Size), target off n = some r → target off n = some r' → r = r') ∧
  (∀ (r : Reg) (off off' : Int) (n n' : Size), target off n = some r → target off' n' = some r → off = off' ∧ n = n') ∧
  ∀ s : State, s.seq = .idle →
    hostRead s 0x000 .word = .okRead (.word s.cur) ∧
    hostRead s 0x004 .word = .okRead (.word s.status) ∧
    hostRead s 0x008 .word = .okRead (.word s.mp) ∧
    (∀ i : Fin 128, hostRead s (0x200 + 4 * (i.val : Int)) .word = .okRead (.word s.w[i])) ∧
    (∀ i : Fin 128, hostRead s (0x400 + 4 * (i.val : Int)) .word = .okRead (.word s.rv[i])) ∧
    (∀ j : Fin 512, hostRead s (0x600 + (j.val : Int)) .byte = .okRead (.byte s.b[j]))

/-- R52, R59: when a host read is `OK` and what it returns, and that a read never changes any register, whatever its outcome. -/
def Obligations.HostReadAnswersWholeRegistersAndChangesNothing : Prop :=
  ∀ (s : State) (off : Int) (n : Size) (rest : List Event), s.agenda = .host (.read off n) :: rest →
    ∃ r : Response, step s = .next { s with agenda := rest, response := some r } ∧ r ≠ .okWrite ∧
      ∀ v : BusData, r = .okRead v ↔
        ∃ q : Reg, off = (q.offset : Int) ∧ n = q.size ∧ (s.seq = .idle ∨ q = .cmd ∨ q = .status) ∧ v = readReg s q

/-- R53: when a host write is `OK`, and its whole effect on the state for each register with write rights; in every other
case it is refused and changes nothing. -/
def Obligations.HostWriteActsOnCommandWordsAndBytesOnly : Prop :=
  ∀ (s : State) (off : Int) (d : BusData) (rest : List Event), s.agenda = .host (.write off d) :: rest →
    (∀ (i : Fin 128) (v : Word), s.seq = .idle → off = 0x200 + 4 * (i.val : Int) → d = .word v →
      step s = .next { s with w := s.w.set i v, mpv := false, rvv := false, agenda := rest, response := some .okWrite }) ∧
    (∀ (j : Fin 512) (v : Byte), s.seq = .idle → off = 0x600 + (j.val : Int) → d = .byte v →
      step s = .next { s with b := s.b.set j v, agenda := rest, response := some .okWrite }) ∧
    (∀ v : Word, s.seq = .idle → off = 0x000 → d = .word v →
      step s = .next { s with cur := v, seq := .busy, done := false, err := 0, agenda := rest, response := some .okWrite }) ∧
    ((s.seq = .busy ∨ ∀ q : Reg, q.writable = true → ¬ (off = (q.offset : Int) ∧ d.size = q.size)) →
      step s = .next { s with agenda := rest, response := some .busError })

/-- R54: a refused access changes no state of the unit at all and delivers no value. -/
def Obligations.RefusedAccessChangesNothing : Prop :=
  ∀ (s t : State) (a : Access) (rest : List Event), s.agenda = .host a :: rest → step s = .next t →
    AccessRefused t → t = { s with agenda := rest, response := some .busError }

/-- R55, R56: accesses of the wrong size, misaligned, unmapped or outside the window are refused, reads and writes alike, in
both sequencer states. -/
def Obligations.WrongSizesAndUnmappedOffsetsAreRefused : Prop :=
  ∀ (s : State) (off : Int) (n : Size) (d : BusData),
    (off < 0 ∨ 0x800 ≤ off ∨ (0x00C ≤ off ∧ off < 0x200) ∨
      n = .half ∨ (n = .byte ∧ 0 ≤ off ∧ off < 0x600) ∨ (n = .word ∧ 0x600 ≤ off) ∨ (n = .word ∧ off % 4 ≠ 0)) →
    d.size = n → hostRead s off n = .busError ∧ hostWrite s off d = none

/-- R57: a write to `STATUS`, `MP` or any `RV[i]` is refused and changes nothing. -/
def Obligations.ReadOnlyRegistersRefuseWrites : Prop :=
  ∀ (s : State) (off : Int) (d : BusData) (rest : List Event), s.agenda = .host (.write off d) :: rest →
    (off = 0x004 ∨ off = 0x008 ∨ ∃ i : Fin 128, off = 0x400 + 4 * (i.val : Int)) →
    step s = .next { s with agenda := rest, response := some .busError }

/-- R58: while a command is in flight the only accesses that succeed are reads of `CMD` and `STATUS`, and those do; every
other one is refused and changes nothing. -/
def Obligations.BusyUnitAnswersOnlyCommandAndStatusReads : Prop :=
  ∀ (s : State) (a : Access) (rest : List Event), s.seq = .busy → s.agenda = .host a :: rest →
    (a = .read 0x000 .word → step s = .next { s with agenda := rest, response := some (.okRead (.word s.cur)) }) ∧
    (a = .read 0x004 .word → step s = .next { s with agenda := rest, response := some (.okRead (.word s.status)) }) ∧
    (a ≠ .read 0x000 .word → a ≠ .read 0x004 .word →
      step s = .next { s with agenda := rest, response := some .busError })

/-- R61: once a read of `STATUS` shows `DONE = 1`, the unit is idle, `ERR` holds a result of the command in `CUR`, and the
unit has nothing left to do, so every register the completed command writes holds its final value. That a unit turn which
falls at this idle unit passes, taking only itself off the agenda, is the model's choice (log 3), not R61's. -/
def Obligations.DoneMeansTheUnitHasFinished : Prop :=
  ∀ (s t : State) (rest : List Event), ControlInv s → s.agenda = .host (.read 0x004 .word) :: .unit :: rest →
    step s = .next t → s.status.getLsbD 1 = true →
    t.response = some (.okRead (.word s.status)) ∧ step t = .next { t with agenda := rest } ∧ t.seq = .idle ∧
      ∃ e ∈ reportable t.cur, t.err = e.code

/-! ### MPRIME and RCALC (spec/40_montgomery.md) -/

/-- R101: `MPRIME`: the unique `x` of the defining equation into `MP`, `MPV` set and nothing else changed for an odd lowest
word; its two errors; the words that encode it and the words with its opcode that do not; its corner cases (that `MP` is odd the
spec marks as derived from the defining equation). -/
def Obligations.MprimeComputesTheNegatedInverse : Prop :=
  (∀ (ws : Wsel) (s : State), ws ≠ .unsupported → s.w[0].toNat % 2 = 1 →
    ∃ x : Word, x.toNat * s.w[0].toNat % 2 ^ 32 = 2 ^ 32 - 1 ∧
      (∀ y : Word, y.toNat * s.w[0].toNat % 2 ^ 32 = 2 ^ 32 - 1 → y = x) ∧ x.toNat % 2 = 1 ∧
      (s.w[0] = 0x00000001 → x = 0xFFFFFFFF) ∧ (s.w[0] = 0xFFFFFFFF → x = 0x00000001) ∧
      (s.w[0] = 0x00000003 → x = 0x55555555) ∧
      exec (.mprime ws) s = .next { s with mp := x, mpv := true, err := 0, done := true, seq := .idle }) ∧
  (∀ (ws : Wsel) (s : State), ws ≠ .unsupported → s.w[0].toNat % 2 = 0 →
    exec (.mprime ws) s = .next { s with err := 5, done := true, seq := .idle }) ∧
  (∀ s : State, exec (.mprime .unsupported) s = .next { s with err := 3, done := true, seq := .idle }) ∧
  encode (.mprime .w1024) = 0x00000003 ∧ encode (.mprime .w2048) = 0x00000013 ∧ encode (.mprime .w4096) = 0x00000023 ∧
  (∀ c : Word, opOf c = 3 → 64 ≤ c.toNat → ∃ e, decode c = .error e)

/-- R102: for an odd lowest word there is exactly one inverse modulo 2^32 and `MP` is its negation, which is also the negated
inverse of the whole modulus; for an even one there is none. -/
def Obligations.MprimeInvertsTheWholeModulus : Prop :=
  (∀ (ws : Wsel) (k : Width) (s : State), ws.width = some k → s.w[0].toNat % 2 = 1 →
    ∃ (inv : Word) (t : State), inv.toNat * s.w[0].toNat % 2 ^ 32 = 1 ∧
      (∀ y : Word, y.toNat * s.w[0].toNat % 2 ^ 32 = 1 → y = inv) ∧
      exec (.mprime ws) s = .next t ∧ t.mp.toNat = (2 ^ 32 - inv.toNat) % 2 ^ 32 ∧
      t.mp.toNat * val s.w k.wordCount % 2 ^ 32 = 2 ^ 32 - 1) ∧
  (∀ n0 y : Word, n0.toNat % 2 = 0 → y.toNat * n0.toNat % 2 ^ 32 ≠ 1)

/-- R104: `RCALC`: word `i` of `2^(64*wc) mod n` into `RV[i]` for the words of the width, `RVV` set and nothing else changed
for a non-zero modulus; its two errors; the words that encode it and the words with its opcode that do not. -/
def Obligations.RcalcComputesTheRValue : Prop :=
  (∀ (ws : Wsel) (k : Width) (s : State), ws.width = some k → val s.w k.wordCount ≠ 0 →
    ∃ rv' : Vector Word 128,
      (∀ i (h : i < 128), i < k.wordCount →
        rv'[i].toNat = 2 ^ (64 * k.wordCount) % val s.w k.wordCount / 2 ^ (32 * i) % 2 ^ 32) ∧
      (∀ i (h : i < 128), k.wordCount ≤ i → rv'[i] = s.rv[i]) ∧
      exec (.rcalc ws) s = .next { s with rv := rv', rvv := true, err := 0, done := true, seq := .idle }) ∧
  (∀ (ws : Wsel) (k : Width) (s : State), ws.width = some k → val s.w k.wordCount = 0 →
    exec (.rcalc ws) s = .next { s with err := 4, done := true, seq := .idle }) ∧
  (∀ s : State, exec (.rcalc .unsupported) s = .next { s with err := 3, done := true, seq := .idle }) ∧
  encode (.rcalc .w1024) = 0x00000004 ∧ encode (.rcalc .w2048) = 0x00000014 ∧ encode (.rcalc .w4096) = 0x00000024 ∧
  (∀ c : Word, opOf c = 4 → 64 ≤ c.toNat → ∃ e, decode c = .error e)

/-- R105: nothing wraps and nothing is truncated: the words of `RV` denote the least non-negative residue. -/
def Obligations.RcalcStoresTheLeastResidue : Prop :=
  ∀ (ws : Wsel) (k : Width) (s : State), ws.width = some k → val s.w k.wordCount ≠ 0 →
    ∃ t, exec (.rcalc ws) s = .next t ∧
      val t.rv k.wordCount < val s.w k.wordCount ∧ val s.w k.wordCount < 2 ^ (32 * k.wordCount) ∧
      val s.w k.wordCount ∣ 2 ^ (64 * k.wordCount) - val t.rv k.wordCount ∧
      val t.rv k.wordCount ≤ 2 ^ (64 * k.wordCount)

/-- R106: the corner cases of `RCALC`. -/
def Obligations.RcalcCornerCases : Prop :=
  ∀ (ws : Wsel) (k : Width) (s : State), ws.width = some k →
    (val s.w k.wordCount = 0 → exec (.rcalc ws) s = .next { s with err := 4, done := true, seq := .idle }) ∧
    (val s.w k.wordCount ≠ 0 → ∃ t, exec (.rcalc ws) s = .next t ∧ t.err = 0 ∧
      val t.rv k.wordCount = 2 ^ (64 * k.wordCount) % val s.w k.wordCount ∧
      ((∃ e, e ≤ 32 * k.wordCount - 1 ∧ val s.w k.wordCount = 2 ^ e) →
        ∀ i (h : i < 128), i < k.wordCount → t.rv[i] = 0) ∧
      (∀ j, val s.w k.wordCount < 2 ^ (32 * j) → ∀ i (h : i < 128), j ≤ i → i < k.wordCount → t.rv[i] = 0) ∧
      ((∀ i (h : i < 128), i < k.wordCount → s.w[i] = 0xFFFFFFFF) →
        t.rv[0] = 1 ∧ ∀ i (h : i < 128), 1 ≤ i → i < k.wordCount → t.rv[i] = 0) ∧
      (∀ i (h : i < 128), k.wordCount ≤ i → t.rv[i] = s.rv[i]))

/-- R100, R106: the two results depend on the modulus and the width alone: two states with the same words of the width get
the same code and, where it is OK, the same result. -/
def Obligations.MontgomeryResultsDependOnTheModulusAlone : Prop :=
  ∀ (ws : Wsel) (k : Width) (s s' : State), ws.width = some k →
    (∀ i (h : i < 128), i < k.wordCount → s.w[i] = s'.w[i]) →
    (∃ t t', exec (.mprime ws) s = .next t ∧ exec (.mprime ws) s' = .next t' ∧ t.err = t'.err ∧
      (t.err = 0 → t.mp = t'.mp)) ∧
    (∃ t t', exec (.rcalc ws) s = .next t ∧ exec (.rcalc ws) s' = .next t' ∧ t.err = t'.err ∧
      (t.err = 0 → ∀ i (h : i < 128), i < k.wordCount → t.rv[i] = t'.rv[i]))

/-! ### B2W and W2B (spec/41_marshal.md) -/

/-- R121: `B2W`: each word from its four bytes, the flags cleared and nothing else changed, when the declared length is the
block size; its two errors; the words that encode it and the words with its opcode that do not. -/
def Obligations.B2wConvertsTheBlock : Prop :=
  (∀ (ws : Wsel) (k : Width) (s : State), ws.width = some k →
    ∃ w' : Vector Word 128,
      (∀ i (h : i < 128) (hk : i < k.wordCount), w'[i].toNat =
        (s.b[k.blockSize - 1 - 4 * i]'(by have := k.blockSize_le; omega)).toNat
        + (s.b[k.blockSize - 2 - 4 * i]'(by have := k.blockSize_le; omega)).toNat * 2 ^ 8
        + (s.b[k.blockSize - 3 - 4 * i]'(by have := k.blockSize_le; omega)).toNat * 2 ^ 16
        + (s.b[k.blockSize - 4 - 4 * i]'(by have := k.blockSize_le; omega)).toNat * 2 ^ 24) ∧
      (∀ i (h : i < 128), k.wordCount ≤ i → w'[i] = s.w[i]) ∧
      exec (.b2w ws k.blockSize) s =
        .next { s with w := w', mpv := false, rvv := false, err := 0, done := true, seq := .idle }) ∧
  (∀ (ws : Wsel) (k : Width) (len : Nat) (s : State), ws.width = some k → len ≠ k.blockSize →
    exec (.b2w ws len) s = .next { s with err := 1, done := true, seq := .idle }) ∧
  (∀ (len : Nat) (s : State), exec (.b2w .unsupported len) s = .next { s with err := 3, done := true, seq := .idle }) ∧
  (∀ (ws : Wsel) (len : Nat), len < 1024 →
    (encode (.b2w ws len)).toNat = len * 2 ^ 16 + (wselBits ws).toNat * 2 ^ 4 + 1) ∧
  (∀ c : Word, opOf c = 1 → (c.toNat / 2 ^ 26 ≠ 0 ∨ c.toNat / 2 ^ 6 % 2 ^ 10 ≠ 0) → ∃ e, decode c = .error e)

/-- R123: after a successful `B2W` the word array denotes the same integer as the byte block. -/
def Obligations.B2wKeepsTheValue : Prop :=
  ∀ (ws : Wsel) (k : Width) (s : State), ws.width = some k →
    ∃ t, exec (.b2w ws k.blockSize) s = .next t ∧ val t.w k.wordCount = valB s.b k.blockSize

/-- R124: `W2B`: the four bytes of each word to their places and nothing else changed, when the capacity is at least the
block size, whatever it is; its two errors; the words that encode it and the words with its opcode that do not. -/
def Obligations.W2bConvertsTheWords : Prop :=
  (∀ (ws : Wsel) (k : Width) (len : Nat) (s : State), ws.width = some k → k.blockSize ≤ len →
    ∃ b' : Vector Byte 512,
      (∀ i (h : i < 128), i < k.wordCount →
        (b'[k.blockSize - 1 - 4 * i]'(by have := k.blockSize_le; omega)).toNat = s.w[i].toNat % 2 ^ 8 ∧
        (b'[k.blockSize - 2 - 4 * i]'(by have := k.blockSize_le; omega)).toNat = s.w[i].toNat / 2 ^ 8 % 2 ^ 8 ∧
        (b'[k.blockSize - 3 - 4 * i]'(by have := k.blockSize_le; omega)).toNat = s.w[i].toNat / 2 ^ 16 % 2 ^ 8 ∧
        (b'[k.blockSize - 4 - 4 * i]'(by have := k.blockSize_le; omega)).toNat = s.w[i].toNat / 2 ^ 24 % 2 ^ 8) ∧
      (∀ j (h : j < 512), k.blockSize ≤ j → b'[j] = s.b[j]) ∧
      exec (.w2b ws len) s = .next { s with b := b', err := 0, done := true, seq := .idle }) ∧
  (∀ (ws : Wsel) (k : Width) (len : Nat) (s : State), ws.width = some k → len < k.blockSize →
    exec (.w2b ws len) s = .next { s with err := 2, done := true, seq := .idle }) ∧
  (∀ (len : Nat) (s : State), exec (.w2b .unsupported len) s = .next { s with err := 3, done := true, seq := .idle }) ∧
  (∀ (ws : Wsel) (len : Nat), len < 1024 →
    (encode (.w2b ws len)).toNat = len * 2 ^ 16 + (wselBits ws).toNat * 2 ^ 4 + 2) ∧
  (∀ c : Word, opOf c = 2 → (c.toNat / 2 ^ 26 ≠ 0 ∨ c.toNat / 2 ^ 6 % 2 ^ 10 ≠ 0) → ∃ e, decode c = .error e)

/-- R125: the round-trip laws (a) to (d). (d) is said as: different blocks give different word arrays, and every word array
is reached; the same for the other direction follows by (a) and (b). -/
def Obligations.MarshalRoundTrips : Prop :=
  ∀ (ws : Wsel) (k : Width), ws.width = some k →
    (∀ s : State, ∃ t u, exec (.b2w ws k.blockSize) s = .next t ∧ exec (.w2b ws k.blockSize) t = .next u ∧ u.b = s.b) ∧
    (∀ s : State, ∃ t u, exec (.w2b ws k.blockSize) s = .next t ∧ exec (.b2w ws k.blockSize) t = .next u ∧ u.w = s.w ∧
      u.mpv = false ∧ u.rvv = false) ∧
    (∀ s : State, ∃ t, exec (.w2b ws k.blockSize) s = .next t ∧ valB t.b k.blockSize = val s.w k.wordCount) ∧
    (∀ s s' t t' : State, exec (.b2w ws k.blockSize) s = .next t → exec (.b2w ws k.blockSize) s' = .next t' →
      (∀ i (h : i < 128), i < k.wordCount → t.w[i] = t'.w[i]) →
      ∀ j (h : j < 512), j < k.blockSize → s.b[j] = s'.b[j]) ∧
    (∀ (s : State) (w' : Vector Word 128), ∃ (b' : Vector Byte 512) (t : State),
      exec (.b2w ws k.blockSize) { s with b := b' } = .next t ∧
      ∀ i (h : i < 128), i < k.wordCount → t.w[i] = w'[i])

/-- R122: what no command of a width touches: the storage beyond it is unchanged, and its content has no influence on any
result: states that agree below the width are taken to states that agree below it. -/
def Obligations.StorageBeyondTheWidthIsInert : Prop :=
  ∀ (ws : Wsel) (k : Width) (i : Instr), ws.width = some k →
    (i = .mprime ws ∨ i = .rcalc ws ∨ (∃ len, i = .b2w ws len) ∨ ∃ len, i = .w2b ws len) →
    (∀ s t : State, exec i s = .next t → SameAbove k s t) ∧
    (∀ s s' : State, AgreeBelow k s s' → ∃ t t', exec i s = .next t ∧ exec i s' = .next t' ∧ AgreeBelow k t t')

/-! ### ZERO, errors and their order (spec/42_housekeeping.md, spec/60_exceptions.md) -/

/-- R140: `ZERO` clears every data register and both flags, keeps `CUR`, and is a single word. -/
def Obligations.ZeroClearsEveryDataRegister : Prop :=
  (∀ s : State, exec .zero s = .next { s with
    w := Vector.replicate 128 0, rv := Vector.replicate 128 0, mp := 0, b := Vector.replicate 512 0,
    mpv := false, rvv := false, err := 0, done := true, seq := .idle }) ∧
  encode .zero = 0x00000005 ∧
  (∀ c : Word, opOf c = 5 → c ≠ 0x00000005 → ∃ e, decode c = .error e) ∧
  (∀ s t : State, exec .zero s = .next t → Zeroized t ∧ SameData State.reset t)

/-- R86, R153: `WSEL = 3` on opcodes 1 to 4 is a legal command with an unsupported width: it decodes, and completes with
`Internal` and no other effect, whatever its length and the data. -/
def Obligations.UnsupportedWidthCompletesWithInternal : Prop :=
  (∀ (len : Nat) (s : State), ∀ i ∈ [Instr.b2w .unsupported len, .w2b .unsupported len, .mprime .unsupported, .rcalc .unsupported],
    exec i s = .next { s with err := 3, done := true, seq := .idle }) ∧
  (∀ c : Word, ¬ IllegalWord c → opOf c ≠ 5 → wselOf c = 3 →
    ∃ i len, decode c = .ok i ∧
      i ∈ [Instr.b2w .unsupported len, .w2b .unsupported len, .mprime .unsupported, .rcalc .unsupported])

/-- R155, R84, R150: the code a command completes with is the first that applies, in the rule's order; a reset wins over
everything, and the registers then hold what reset leaves (R34). -/
def Obligations.CompletionReportsTheFirstError : Prop :=
  (∀ s : State, s.seq = .busy → (s.agenda = [] ∨ ∃ rest, s.agenda = .unit :: rest) →
    ∃ t, step s = .next t ∧ FirstError s.cur s t.err) ∧
  (∀ (s : State) (rest : List Event), s.seq = .busy → s.agenda = .reset :: rest →
    ∃ t, step s = .next t ∧ registers t = registers State.reset)

/-! ### Reset, liveness, end of a run (spec/70_reset_and_hazards.md) -/

/-- R34: every register after reset, and what `STATUS` and `CMD` read. -/
def Obligations.ResetLeavesEveryRegisterZero : Prop :=
  (∀ i (h : i < 128), State.reset.w[i] = 0) ∧ (∀ i (h : i < 128), State.reset.rv[i] = 0) ∧ State.reset.mp = 0 ∧
  (∀ j (h : j < 512), State.reset.b[j] = 0) ∧ State.reset.cur = 0 ∧ State.reset.seq = .idle ∧ State.reset.done = false ∧
  State.reset.err = 0 ∧ State.reset.mpv = false ∧ State.reset.rvv = false ∧
  hostRead State.reset 0x004 .word = .okRead (.word 0) ∧ hostRead State.reset 0x000 .word = .okRead (.word 0)

/-- R180, R181: reset in any state, also with a command in flight, takes every register to its reset value; none of the
command's writes happens. (What becomes of the model's own two fields is `StepTakesOneTurnAndOnlyTheHostGetsAnswers`.) -/
def Obligations.ResetCancelsAndClearsInEveryState : Prop :=
  ∀ (s : State) (rest : List Event), s.agenda = .reset :: rest →
    ∃ t, step s = .next t ∧ Zeroized t ∧ t.cur = 0 ∧ t.seq = .idle ∧ t.done = false ∧ t.err = 0 ∧ t.mpv = false ∧
      t.rvv = false

/-- R189, R31, R58: every started command completes. From a busy state with no reset among the turns to come there is a
number of steps, bounded by the turns, after which the command has completed; and the state it reached is the command's
completion on the data registers as they were at the start, whatever accesses the host made meanwhile. -/
def Obligations.EveryStartedCommandCompletes : Prop :=
  ∀ s : State, s.seq = .busy → Event.reset ∉ s.agenda →
    ∃ n ≤ s.agenda.length + 1, ∃ t : State, Host.Core.run Sys2Proof.core n s = .next t ∧
      t.seq = .idle ∧ t.done = true ∧ t.cur = s.cur ∧
      completion { s with agenda := t.agenda, response := t.response } = .next t

/-- R193: a run is over exactly when no access of the host is left and the unit is idle, whatever turns of the unit and of
reset are left; its final state is the values of all registers, which no number of further steps changes while no reset falls
(R182; a reset turn leaves what reset leaves, R180); a state with a command in flight is never final. The last clause, that a
step answers the very same state exactly when the unit is idle with no turn left, is the model's choice (log 2: an idle unit
rests; log 1: any other step takes its turn off the agenda or completes a command). -/
def Obligations.RunIsOverExactlyWhenIdleWithNoAccessLeft : Prop :=
  (∀ s : State, RunOver s ↔ (∀ a : Access, Event.host a ∉ s.agenda) ∧ s.seq = .idle) ∧
  (∀ s : State, (∀ a : Access, Event.host a ∉ s.agenda) → s.seq = .idle →
    finalState s = some
      { w := s.w, rv := s.rv, mp := s.mp, b := s.b, cur := s.cur, seq := .idle, done := s.done, err := s.err,
        mpv := s.mpv, rvv := s.rvv }) ∧
  (∀ s : State, s.seq = .busy → finalState s = none) ∧
  (∀ (s : State) (r : Registers), finalState s = some r → Event.reset ∉ s.agenda →
    ∀ n : Nat, ∃ t, Host.Core.run Sys2Proof.core n s = .next t ∧ finalState t = some r) ∧
  (∀ (s : State) (r : Registers) (rest : List Event), finalState s = some r → s.agenda = .reset :: rest →
    ∃ t, step s = .next t ∧ finalState t = some (registers State.reset)) ∧
  (∀ s : State, step s = .next s ↔ s.agenda = [] ∧ s.seq = .idle)

/-! ### Invariants of every step -/

/-- R24 to R27, R30, R31, R107, R150: every step of every agent keeps the control invariant. -/
def Obligations.StepKeepsTheControlInvariant : Prop :=
  ∀ s t : State, ControlInv s → step s = .next t → ControlInv t

/-- R34: the control invariant holds after reset. -/
def Obligations.ResetMeetsTheControlInvariant : Prop := ControlInv State.reset

/-- R29, R101, R104: every step of every agent keeps what the validity flags promise of `MP`, `RV` and `W`. -/
def Obligations.StepKeepsTheValidityPromise : Prop :=
  ∀ s t : State, DerivedInv s → step s = .next t → DerivedInv t

/-- R29, R34: the promise of the validity flags holds after reset. -/
def Obligations.ResetMeetsTheValidityPromise : Prop := DerivedInv State.reset

/-- R101, R104, R121, R123: the three commands one after another take a big-endian block to the Montgomery parameters of its
integer: both flags set, `MP` the negated inverse of the integer modulo 2^32, `RV` its R-value, the block untouched. -/
def Obligations.BlockBecomesItsMontgomeryParameters : Prop :=
  ∀ (ws : Wsel) (k : Width) (s : State), ws.width = some k → valB s.b k.blockSize % 2 = 1 →
    ∃ s1 s2 s3, exec (.b2w ws k.blockSize) s = .next s1 ∧ exec (.mprime ws) s1 = .next s2 ∧
      exec (.rcalc ws) s2 = .next s3 ∧ s3.err = 0 ∧ s3.mpv = true ∧ s3.rvv = true ∧ s3.b = s.b ∧
      s3.mp.toNat * valB s.b k.blockSize % 2 ^ 32 = 2 ^ 32 - 1 ∧
      val s3.rv k.wordCount = 2 ^ (64 * k.wordCount) % valB s.b k.blockSize

/-! ### Turns -/

/-- R11, R182: an idle unit starts nothing by itself: at its turn no register changes. That such a turn exists and passes
(log 3), and that an idle unit with no turn left rests (log 2), is the model's choice. -/
def Obligations.IdleUnitStartsNothingByItself : Prop :=
  ∀ s : State, s.seq = .idle → (s.agenda = [] ∨ ∃ rest, s.agenda = .unit :: rest) →
    step s = .next { s with agenda := s.agenda.tail }

/-- R11, R13, R60: every step takes exactly the next turn, and only the host's turn changes the host's last answer, which it
always sets. It is about the model's own two fields (log 1, log 5), and that a reset keeps both is the model's choice
(log 14). -/
def Obligations.StepTakesOneTurnAndOnlyTheHostGetsAnswers : Prop :=
  (∀ s t : State, step s = .next t → t.agenda = s.agenda.tail) ∧
  (∀ s t : State, step s = .next t → (∀ a rest, s.agenda ≠ .host a :: rest) → t.response = s.response) ∧
  (∀ (s t : State) (a : Access) (rest : List Event), s.agenda = .host a :: rest → step s = .next t →
    ∃ r, t.response = some r)
end

