-- ==== Sys2Proof/Laws/Decode.lean ====
section
/-! SUPPORT. The fields of a command word built by the encoder, and the selector numbers. -/

namespace Sys2Proof

@[simp] theorem wselOfBits_wselBits (ws : Wsel) : wselOfBits (wselBits ws) = ws := by cases ws <;> rfl

@[simp] theorem wselBits_wselOfBits (x : BitVec 2) : wselBits (wselOfBits x) = x := by revert x; decide

@[simp] theorem fieldOp_commandWord (len : BitVec 10) (ws : BitVec 2) (op : BitVec 4) :
    fieldOp (commandWord len ws op) = op := by
  apply BitVec.eq_of_getLsbD_eq
  intro i hi
  simp only [fieldOp, commandWord, BitVec.getLsbD_extractLsb', BitVec.getLsbD_append]
  simp [hi]

@[simp] theorem fieldWsel_commandWord (len : BitVec 10) (ws : BitVec 2) (op : BitVec 4) :
    fieldWsel (commandWord len ws op) = ws := by
  apply BitVec.eq_of_getLsbD_eq
  intro i hi
  simp only [fieldWsel, commandWord, BitVec.getLsbD_extractLsb', BitVec.getLsbD_append]
  simp [hi]

@[simp] theorem fieldZ0_commandWord (len : BitVec 10) (ws : BitVec 2) (op : BitVec 4) :
    fieldZ0 (commandWord len ws op) = 0 := by
  apply BitVec.eq_of_getLsbD_eq
  intro i hi
  simp only [fieldZ0, commandWord, BitVec.getLsbD_extractLsb', BitVec.getLsbD_append]
  interval_cases i <;> simp

@[simp] theorem fieldLen_commandWord (len : BitVec 10) (ws : BitVec 2) (op : BitVec 4) :
    fieldLen (commandWord len ws op) = len := by
  apply BitVec.eq_of_getLsbD_eq
  intro i hi
  simp only [fieldLen, commandWord, BitVec.getLsbD_extractLsb', BitVec.getLsbD_append]
  interval_cases i <;> simp

@[simp] theorem fieldZ1_commandWord (len : BitVec 10) (ws : BitVec 2) (op : BitVec 4) :
    fieldZ1 (commandWord len ws op) = 0 := by
  apply BitVec.eq_of_getLsbD_eq
  intro i hi
  simp only [fieldZ1, commandWord, BitVec.getLsbD_extractLsb', BitVec.getLsbD_append]
  interval_cases i <;> simp

/-! ### The fields as numbers -/

theorem fieldOp_toNat (c : Word) : (fieldOp c).toNat = c.toNat % 16 := by
  simp [fieldOp, BitVec.extractLsb'_toNat]

theorem fieldWsel_toNat (c : Word) : (fieldWsel c).toNat = c.toNat / 16 % 4 := by
  simp [fieldWsel, BitVec.extractLsb'_toNat, Nat.shiftRight_eq_div_pow]

theorem fieldZ0_toNat (c : Word) : (fieldZ0 c).toNat = c.toNat / 2 ^ 6 % 2 ^ 10 := by
  simp [fieldZ0, BitVec.extractLsb'_toNat, Nat.shiftRight_eq_div_pow]

theorem fieldLen_toNat (c : Word) : (fieldLen c).toNat = c.toNat / 2 ^ 16 % 2 ^ 10 := by
  simp [fieldLen, BitVec.extractLsb'_toNat, Nat.shiftRight_eq_div_pow]

theorem fieldZ1_toNat (c : Word) : (fieldZ1 c).toNat = c.toNat / 2 ^ 26 := by
  have := c.isLt
  simp only [fieldZ1, BitVec.extractLsb'_toNat, Nat.shiftRight_eq_div_pow]
  omega

/-- The five fields make up the word. -/
theorem word_of_fields (c : Word) :
    c.toNat = (fieldZ1 c).toNat * 2 ^ 26 + (fieldLen c).toNat * 2 ^ 16 + (fieldZ0 c).toNat * 2 ^ 6
      + (fieldWsel c).toNat * 2 ^ 4 + (fieldOp c).toNat := by
  rw [fieldZ1_toNat, fieldLen_toNat, fieldZ0_toNat, fieldWsel_toNat, fieldOp_toNat]
  omega

/-- The arithmetic form of a word of format `C`. -/
theorem commandWord_toNat (len : BitVec 10) (ws : BitVec 2) (op : BitVec 4) :
    (commandWord len ws op).toNat = len.toNat * 2 ^ 16 + ws.toNat * 2 ^ 4 + op.toNat := by
  rw [word_of_fields]
  simp

/-! ### The decoder's inversion -/

/-- R84 step 1: what a word that decodes looks like, command by command. -/
theorem decode_ok {c : Word} {i : Instr} (h : decode c = .ok i) :
    fieldZ1 c = 0 ∧ fieldZ0 c = 0 ∧
    ((fieldOp c = 1 ∧ i = .b2w (wselOfBits (fieldWsel c)) (fieldLen c).toNat) ∨
     (fieldOp c = 2 ∧ i = .w2b (wselOfBits (fieldWsel c)) (fieldLen c).toNat) ∨
     (fieldOp c = 3 ∧ fieldLen c = 0 ∧ i = .mprime (wselOfBits (fieldWsel c))) ∨
     (fieldOp c = 4 ∧ fieldLen c = 0 ∧ i = .rcalc (wselOfBits (fieldWsel c))) ∨
     (fieldOp c = 5 ∧ fieldLen c = 0 ∧ fieldWsel c = 0 ∧ i = .zero)) := by
  unfold decode at h
  split at h
  · cases h
  · rename_i hz
    rw [not_or, not_not, not_not] at hz
    refine ⟨hz.1, hz.2, ?_⟩
    have hop : fieldOp c = BitVec.ofNat 4 (fieldOp c).toNat := by simp
    split at h <;> rename_i ho <;> try rw [ho] at hop
    · cases h; exact .inl ⟨hop, rfl⟩
    · cases h; exact .inr (.inl ⟨hop, rfl⟩)
    · split at h
      · rename_i hl; cases h; exact .inr (.inr (.inl ⟨hop, hl, rfl⟩))
      · cases h
    · split at h
      · rename_i hl; cases h; exact .inr (.inr (.inr (.inl ⟨hop, hl, rfl⟩)))
      · cases h
    · split at h
      · rename_i hl; cases h; exact .inr (.inr (.inr (.inr ⟨hop, hl.1, hl.2, rfl⟩)))
      · cases h
    · cases h

end Sys2Proof
end

