-- ==== Sys2Proof/Laws/Operands.lean ====
section
/-! SUPPORT. The operands of the commands: what each conversion does to each entry, and what integers it denotes. -/

namespace Sys2Proof

theorem Width.blockSize_eq (k : Width) : k.blockSize = 4 * k.wordCount := by cases k <;> decide

theorem Width.wordCount_le (k : Width) : k.wordCount ≤ 128 := by cases k <;> decide

theorem Width.wordCount_pos (k : Width) : 0 < k.wordCount := by cases k <;> decide

/-- R6: the invariant of the width table. -/
theorem Width.wordCount_mul (k : Width) : k.wordCount * 32 = k.blockSize * 8 := by cases k <;> decide

/-- R6, R82: only selector 3 names no width. -/
theorem Wsel.width_eq_none_iff (ws : Wsel) : ws.width = none ↔ ws = .unsupported := by cases ws <;> simp [Wsel.width]

end Sys2Proof

namespace Sys2Proof.Machine

theorem overwriteFrom_getElem {α : Type} (n : Nat) (f : Nat → α) : ∀ (i0 : Nat) (l : List α) (i : Nat)
    (h : i < (overwriteFrom n f i0 l).length), (overwriteFrom n f i0 l)[i] =
      if i0 + i < n then f (i0 + i) else l[i]'(by rwa [overwriteFrom_length] at h)
  | _, [], _, h => by simp [overwriteFrom] at h
  | i0, x :: xs, 0, _ => by simp [overwriteFrom]
  | i0, x :: xs, i + 1, h => by
    have := overwriteFrom_getElem n f (i0 + 1) xs i (by simpa [overwriteFrom] using h)
    simp only [overwriteFrom, List.getElem_cons_succ, this, Nat.add_assoc, Nat.add_comm 1 i]

/-- R122: what `overwriteLow` leaves at each index, and that it leaves nothing else. -/
@[simp] theorem overwriteLow_getElem {α : Type} {m : Nat} (n : Nat) (f : Nat → α) (v : Vector α m) (i : Nat) (h : i < m) :
    (overwriteLow n f v)[i] = if i < n then f i else v[i] := by
  simp [overwriteLow, overwriteFrom_getElem]

theorem wordsOfBlock_getElem (k : Width) (b : Vector Byte 512) (w : Vector Word 128) (i : Nat) (h : i < 128) :
    (wordsOfBlock k b w)[i] = if i < k.wordCount then wordOfBlock k b i else w[i] := by
  simp [wordsOfBlock]

theorem blockOfWords_getElem (k : Width) (w : Vector Word 128) (b : Vector Byte 512) (j : Nat) (h : j < 512) :
    (blockOfWords k w b)[j] = if j < k.blockSize then byteOfWords k w j else b[j] := by
  simp [blockOfWords]

theorem wordsOfNat_getElem (wc r : Nat) (rv : Vector Word 128) (i : Nat) (h : i < 128) :
    (wordsOfNat wc r rv)[i] = if i < wc then wordOfNat r i else rv[i] := by
  simp [wordsOfNat]

/-! ### The bytes of a word (R121, R124) -/

/-- Concatenation as arithmetic. -/
theorem append_toNat {m n : Nat} (x : BitVec m) (y : BitVec n) : (x ++ y).toNat = x.toNat * 2 ^ n + y.toNat := by
  rw [BitVec.toNat_append, ← Nat.shiftLeft_add_eq_or_of_lt y.isLt, Nat.shiftLeft_eq]

/-- R121: the sum that the rule writes for word `i`. -/
theorem wordOfBlock_toNat (k : Width) (b : Vector Byte 512) (i : Nat) :
    (wordOfBlock k b i).toNat = (reversedByte k b (4 * i)).toNat + (reversedByte k b (4 * i + 1)).toNat * 2 ^ 8
      + (reversedByte k b (4 * i + 2)).toNat * 2 ^ 16 + (reversedByte k b (4 * i + 3)).toNat * 2 ^ 24 := by
  simp only [wordOfBlock, append_toNat]
  omega

/-- R124: the slice that goes to byte `j`, as arithmetic. -/
theorem byteOfWords_toNat (k : Width) (w : Vector Word 128) (j : Nat) :
    (byteOfWords k w j).toNat =
      (w[(k.blockSize - 1 - j) / 4]'(by have := k.blockSize_le; omega)).toNat
        / 2 ^ (8 * ((k.blockSize - 1 - j) % 4)) % 2 ^ 8 := by
  simp [byteOfWords, BitVec.extractLsb'_toNat, Nat.shiftRight_eq_div_pow]

/-- R101: bit 0 is the parity. -/
theorem getLsbD_zero_eq_odd (x : Word) : x.getLsbD 0 = decide (x.toNat % 2 = 1) := by
  simp [BitVec.getLsbD, Nat.testBit_zero]

/-! ### The integer of a word array (R9) -/

@[simp] theorem val_zero (x : Vector Word 128) : val x 0 = 0 := by simp [val]

/-- R9: one word more is one digit more. -/
theorem val_succ (x : Vector Word 128) (n : Nat) (h : n < 128) :
    val x (n + 1) = val x n + x[n].toNat * 2 ^ (32 * n) := by
  have key : ∀ (l : List Word) (n : Nat) (hn : n < l.length),
      (l.take (n + 1)).foldr (fun v acc => v.toNat + 2 ^ 32 * acc) 0 =
        (l.take n).foldr (fun v acc => v.toNat + 2 ^ 32 * acc) 0 + l[n].toNat * 2 ^ (32 * n) := by
    intro l
    induction l with
    | nil => intro n hn; simp at hn
    | cons a l ih =>
      intro n hn
      cases n with
      | zero => simp
      | succ n =>
        have := ih n (by simpa using hn)
        simp only [List.take_succ_cons, List.foldr_cons, List.getElem_cons_succ, this]
        ring
  have := key x.toList n (by simpa using h)
  rwa [Vector.getElem_toList] at this

/-- R9: one byte more is one digit more. -/
theorem valB_succ (b : Vector Byte 512) (n : Nat) (h : n < 512) : valB b (n + 1) = valB b n * 256 + b[n].toNat := by
  have hl : n < b.toList.length := by simpa using h
  simp only [valB, List.take_succ_eq_append_getElem hl, List.foldl_append, List.foldl_cons, List.foldl_nil,
    Vector.getElem_toList]

@[simp] theorem valB_zero (b : Vector Byte 512) : valB b 0 = 0 := by simp [valB]

/-- R122: words from `n` up have no influence. -/
theorem val_congr (x y : Vector Word 128) : ∀ n, n ≤ 128 → (∀ i (h : i < 128), i < n → x[i] = y[i]) → val x n = val y n
  | 0, _, _ => by simp
  | n + 1, hn, hxy => by
    rw [val_succ x n (by omega), val_succ y n (by omega),
      val_congr x y n (by omega) (fun i h hi => hxy i h (by omega)), hxy n (by omega) (by omega)]

/-- R105: `n` words hold an integer below `2^(32*n)`. -/
theorem val_lt (x : Vector Word 128) : ∀ n, n ≤ 128 → val x n < 2 ^ (32 * n)
  | 0, _ => by simp
  | n + 1, hn => by
    have ih := val_lt x n (by omega)
    have hx : x[n].toNat + 1 ≤ 2 ^ 32 := x[n].isLt
    have hp : 2 ^ (32 * (n + 1)) = 2 ^ 32 * 2 ^ (32 * n) := by rw [Nat.mul_add, Nat.pow_add]; ring
    rw [val_succ x n (by omega), hp]
    have := Nat.mul_le_mul_right (2 ^ (32 * n)) hx
    rw [Nat.add_mul] at this
    omega

/-- R102: the lowest word is the integer modulo 2^32. -/
theorem val_mod (x : Vector Word 128) (n : Nat) (hn : 0 < n) (hn' : n ≤ 128) : val x n % 2 ^ 32 = x[0].toNat := by
  obtain ⟨n, rfl⟩ : ∃ k, n = k + 1 := ⟨n - 1, by omega⟩
  clear hn
  induction n with
  | zero => rw [val_succ x 0 (by omega)]; simpa using x[0].isLt
  | succ n ih =>
    rw [val_succ x (n + 1) (by omega), Nat.add_mod, ih (by omega), Nat.mul_add, Nat.pow_add]
    have : x[n + 1].toNat * (2 ^ (32 * n) * 2 ^ (32 * 1)) % 2 ^ 32 = 0 := by
      rw [← Nat.mul_assoc]; exact Nat.mul_mod_left _ _
    rw [this, Nat.add_zero, Nat.mod_eq_of_lt x[0].isLt]

/-- R104: the digits of `r` denote `r` modulo `2^(32*n)`. -/
theorem val_wordsOfNat_mod (r wc : Nat) (rv : Vector Word 128) :
    ∀ n, n ≤ wc → n ≤ 128 → val (wordsOfNat wc r rv) n = r % 2 ^ (32 * n)
  | 0, _, _ => by simp [Nat.mod_one]
  | n + 1, hn, hn' => by
    have hn0 : n < wc := by omega
    rw [val_succ _ n (by omega), val_wordsOfNat_mod r wc rv n (by omega) (by omega), wordsOfNat_getElem]
    simp only [hn0, if_true, wordOfNat, BitVec.toNat_ofNat]
    rw [Nat.mul_add, Nat.pow_add, Nat.mod_mul, Nat.mul_comm (2 ^ (32 * n))]

/-- R104, R105: a residue that fits the `wc` words is what they denote. -/
theorem val_wordsOfNat (r wc : Nat) (rv : Vector Word 128) (h : wc ≤ 128) (hr : r < 2 ^ (32 * wc)) :
    val (wordsOfNat wc r rv) wc = r := by
  rw [val_wordsOfNat_mod r wc rv wc le_rfl h, Nat.mod_eq_of_lt hr]

/-- R105: `r < n`, and `n` fits the width. -/
theorem rValue_lt (x : Vector Word 128) (k : Width) (h : val x k.wordCount ≠ 0) :
    rValue k.wordCount (val x k.wordCount) < 2 ^ (32 * k.wordCount) :=
  (Nat.mod_lt _ (Nat.pos_of_ne_zero h)).trans (val_lt x _ k.wordCount_le)

/-- R104: the words that `RCALC` stores denote the R-value. -/
theorem val_of_rcalc (x rv : Vector Word 128) (k : Width) (h : val x k.wordCount ≠ 0) :
    val (wordsOfNat k.wordCount (rValue k.wordCount (val x k.wordCount)) rv) k.wordCount =
      2 ^ (64 * k.wordCount) % val x k.wordCount := by
  rw [val_wordsOfNat _ _ _ k.wordCount_le (rValue_lt x k h), rValue]

end Sys2Proof.Machine
end

