-- ==== Sys2Proof/Laws/Montgomery.lean ====
section
/-! SUPPORT. The iteration of R103 has the value that R101 defines. -/

namespace Sys2Proof.Machine

/-- R103: each step squares the error `1 - n0 * x`. -/
theorem inverseStep_error (n0 x : Word) : 1 - n0 * inverseStep n0 x = (1 - n0 * x) * (1 - n0 * x) := by
  simp only [inverseStep]; ring

/-- R103: after `k` steps the error is the first one to the power `2^k`. -/
theorem inverseAfter_error (n0 : Word) (k : Nat) : 1 - n0 * inverseAfter n0 k = (1 - n0) ^ 2 ^ k := by
  induction k with
  | zero => simp [inverseAfter]
  | succ k ih => rw [inverseAfter, inverseStep_error, ih, pow_succ, pow_mul, sq]

/-- An odd word differs from 1 by an even one. -/
theorem one_sub_eq_two_mul (n0 : Word) (h : n0.getLsbD 0 = true) : ∃ m : Word, 1 - n0 = 2 * m := by
  refine ⟨BitVec.ofNat 32 ((1 - n0).toNat / 2), ?_⟩
  have h2 : n0.toNat % 2 = 1 := by simpa [BitVec.getLsbD, Nat.testBit_zero] using h
  apply BitVec.eq_of_toNat_eq
  simp only [BitVec.toNat_sub, BitVec.toNat_mul, BitVec.toNat_ofNat, show (1 : Word).toNat = 1 from rfl,
    show (2 : Word).toNat = 2 from rfl]
  have := n0.isLt
  omega

/-- R101, R102: the defining equation of `MP`, for every odd lowest word. -/
theorem negInverse_mul (n0 : Word) (h : n0.getLsbD 0 = true) : negInverse n0 * n0 = -1 := by
  have he : 1 - n0 * inverseAfter n0 5 = 0 := by
    obtain ⟨m, hm⟩ := one_sub_eq_two_mul n0 h
    have h32 : (2 : Word) ^ 32 = 0 := by decide
    rw [inverseAfter_error, hm, show 2 ^ 5 = 32 from rfl, mul_pow, h32, zero_mul]
  have h1 : n0 * inverseAfter n0 5 = 1 := (sub_eq_zero.mp he).symm
  rw [negInverse, neg_mul, mul_comm, h1]

/-- R101: the same, over the unsigned integers of the rule. -/
theorem negInverse_toNat (n0 : Word) (h : n0.getLsbD 0 = true) :
    (negInverse n0).toNat * n0.toNat % 2 ^ 32 = 2 ^ 32 - 1 := by
  have := congrArg BitVec.toNat (negInverse_mul n0 h)
  rw [BitVec.toNat_mul] at this
  simpa using this

end Sys2Proof.Machine
end

