-- ==== Sys2Proof/Laws/State.lean ====
section
/-! SUPPORT. What each named update of the state does to each of its fields. -/

namespace Sys2Proof.Machine

/-! ### Command start (R30). -/

@[simp] theorem State.startCommand_w (v : Word) (s : State) : (s.startCommand v).w = s.w := rfl
@[simp] theorem State.startCommand_rv (v : Word) (s : State) : (s.startCommand v).rv = s.rv := rfl
@[simp] theorem State.startCommand_mp (v : Word) (s : State) : (s.startCommand v).mp = s.mp := rfl
@[simp] theorem State.startCommand_b (v : Word) (s : State) : (s.startCommand v).b = s.b := rfl
@[simp] theorem State.startCommand_cur (v : Word) (s : State) : (s.startCommand v).cur = v := rfl
@[simp] theorem State.startCommand_seq (v : Word) (s : State) : (s.startCommand v).seq = .busy := rfl
@[simp] theorem State.startCommand_done (v : Word) (s : State) : (s.startCommand v).done = false := rfl
@[simp] theorem State.startCommand_err (v : Word) (s : State) : (s.startCommand v).err = 0 := rfl
@[simp] theorem State.startCommand_mpv (v : Word) (s : State) : (s.startCommand v).mpv = s.mpv := rfl
@[simp] theorem State.startCommand_rvv (v : Word) (s : State) : (s.startCommand v).rvv = s.rvv := rfl
@[simp] theorem State.startCommand_agenda (v : Word) (s : State) : (s.startCommand v).agenda = s.agenda := rfl
@[simp] theorem State.startCommand_response (v : Word) (s : State) : (s.startCommand v).response = s.response := rfl

/-! ### Completion (R31, R156). -/

@[simp] theorem State.complete_w (code : ErrorCode) (s : State) : (s.complete code).w = s.w := rfl
@[simp] theorem State.complete_rv (code : ErrorCode) (s : State) : (s.complete code).rv = s.rv := rfl
@[simp] theorem State.complete_mp (code : ErrorCode) (s : State) : (s.complete code).mp = s.mp := rfl
@[simp] theorem State.complete_b (code : ErrorCode) (s : State) : (s.complete code).b = s.b := rfl
@[simp] theorem State.complete_cur (code : ErrorCode) (s : State) : (s.complete code).cur = s.cur := rfl
@[simp] theorem State.complete_seq (code : ErrorCode) (s : State) : (s.complete code).seq = .idle := rfl
@[simp] theorem State.complete_done (code : ErrorCode) (s : State) : (s.complete code).done = true := rfl
@[simp] theorem State.complete_err (code : ErrorCode) (s : State) : (s.complete code).err = code.code := rfl
@[simp] theorem State.complete_mpv (code : ErrorCode) (s : State) : (s.complete code).mpv = s.mpv := rfl
@[simp] theorem State.complete_rvv (code : ErrorCode) (s : State) : (s.complete code).rvv = s.rvv := rfl
@[simp] theorem State.complete_agenda (code : ErrorCode) (s : State) : (s.complete code).agenda = s.agenda := rfl
@[simp] theorem State.complete_response (code : ErrorCode) (s : State) : (s.complete code).response = s.response := rfl

/-! ### A new content of the word file (R29). -/

@[simp] theorem State.clearValid_w (s : State) : s.clearValid.w = s.w := rfl
@[simp] theorem State.clearValid_rv (s : State) : s.clearValid.rv = s.rv := rfl
@[simp] theorem State.clearValid_mp (s : State) : s.clearValid.mp = s.mp := rfl
@[simp] theorem State.clearValid_b (s : State) : s.clearValid.b = s.b := rfl
@[simp] theorem State.clearValid_cur (s : State) : s.clearValid.cur = s.cur := rfl
@[simp] theorem State.clearValid_seq (s : State) : s.clearValid.seq = s.seq := rfl
@[simp] theorem State.clearValid_done (s : State) : s.clearValid.done = s.done := rfl
@[simp] theorem State.clearValid_err (s : State) : s.clearValid.err = s.err := rfl
@[simp] theorem State.clearValid_mpv (s : State) : s.clearValid.mpv = false := rfl
@[simp] theorem State.clearValid_rvv (s : State) : s.clearValid.rvv = false := rfl
@[simp] theorem State.clearValid_agenda (s : State) : s.clearValid.agenda = s.agenda := rfl
@[simp] theorem State.clearValid_response (s : State) : s.clearValid.response = s.response := rfl

/-! ### A host write to `W[i]` (R53). -/

@[simp] theorem State.writeW_w (i : Fin 128) (v : Word) (s : State) : (s.writeW i v).w = s.w.set i v := rfl
@[simp] theorem State.writeW_rv (i : Fin 128) (v : Word) (s : State) : (s.writeW i v).rv = s.rv := rfl
@[simp] theorem State.writeW_mp (i : Fin 128) (v : Word) (s : State) : (s.writeW i v).mp = s.mp := rfl
@[simp] theorem State.writeW_b (i : Fin 128) (v : Word) (s : State) : (s.writeW i v).b = s.b := rfl
@[simp] theorem State.writeW_cur (i : Fin 128) (v : Word) (s : State) : (s.writeW i v).cur = s.cur := rfl
@[simp] theorem State.writeW_seq (i : Fin 128) (v : Word) (s : State) : (s.writeW i v).seq = s.seq := rfl
@[simp] theorem State.writeW_done (i : Fin 128) (v : Word) (s : State) : (s.writeW i v).done = s.done := rfl
@[simp] theorem State.writeW_err (i : Fin 128) (v : Word) (s : State) : (s.writeW i v).err = s.err := rfl
@[simp] theorem State.writeW_mpv (i : Fin 128) (v : Word) (s : State) : (s.writeW i v).mpv = false := rfl
@[simp] theorem State.writeW_rvv (i : Fin 128) (v : Word) (s : State) : (s.writeW i v).rvv = false := rfl
@[simp] theorem State.writeW_agenda (i : Fin 128) (v : Word) (s : State) : (s.writeW i v).agenda = s.agenda := rfl
@[simp] theorem State.writeW_response (i : Fin 128) (v : Word) (s : State) : (s.writeW i v).response = s.response := rfl

/-! ### A host write to `B[j]` (R53). -/

@[simp] theorem State.writeB_w (j : Fin 512) (v : Byte) (s : State) : (s.writeB j v).w = s.w := rfl
@[simp] theorem State.writeB_rv (j : Fin 512) (v : Byte) (s : State) : (s.writeB j v).rv = s.rv := rfl
@[simp] theorem State.writeB_mp (j : Fin 512) (v : Byte) (s : State) : (s.writeB j v).mp = s.mp := rfl
@[simp] theorem State.writeB_b (j : Fin 512) (v : Byte) (s : State) : (s.writeB j v).b = s.b.set j v := rfl
@[simp] theorem State.writeB_cur (j : Fin 512) (v : Byte) (s : State) : (s.writeB j v).cur = s.cur := rfl
@[simp] theorem State.writeB_seq (j : Fin 512) (v : Byte) (s : State) : (s.writeB j v).seq = s.seq := rfl
@[simp] theorem State.writeB_done (j : Fin 512) (v : Byte) (s : State) : (s.writeB j v).done = s.done := rfl
@[simp] theorem State.writeB_err (j : Fin 512) (v : Byte) (s : State) : (s.writeB j v).err = s.err := rfl
@[simp] theorem State.writeB_mpv (j : Fin 512) (v : Byte) (s : State) : (s.writeB j v).mpv = s.mpv := rfl
@[simp] theorem State.writeB_rvv (j : Fin 512) (v : Byte) (s : State) : (s.writeB j v).rvv = s.rvv := rfl
@[simp] theorem State.writeB_agenda (j : Fin 512) (v : Byte) (s : State) : (s.writeB j v).agenda = s.agenda := rfl
@[simp] theorem State.writeB_response (j : Fin 512) (v : Byte) (s : State) : (s.writeB j v).response = s.response := rfl

/-! ### `ZERO` (R140). -/

@[simp] theorem State.zeroData_w (s : State) : s.zeroData.w = Vector.replicate 128 0 := rfl
@[simp] theorem State.zeroData_rv (s : State) : s.zeroData.rv = Vector.replicate 128 0 := rfl
@[simp] theorem State.zeroData_mp (s : State) : s.zeroData.mp = 0 := rfl
@[simp] theorem State.zeroData_b (s : State) : s.zeroData.b = Vector.replicate 512 0 := rfl
@[simp] theorem State.zeroData_cur (s : State) : s.zeroData.cur = s.cur := rfl
@[simp] theorem State.zeroData_seq (s : State) : s.zeroData.seq = s.seq := rfl
@[simp] theorem State.zeroData_done (s : State) : s.zeroData.done = s.done := rfl
@[simp] theorem State.zeroData_err (s : State) : s.zeroData.err = s.err := rfl
@[simp] theorem State.zeroData_mpv (s : State) : s.zeroData.mpv = false := rfl
@[simp] theorem State.zeroData_rvv (s : State) : s.zeroData.rvv = false := rfl
@[simp] theorem State.zeroData_agenda (s : State) : s.zeroData.agenda = s.agenda := rfl
@[simp] theorem State.zeroData_response (s : State) : s.zeroData.response = s.response := rfl

/-! ### A latched command word (log 10). -/

@[simp] theorem State.latched_w (v : Word) (s : State) : (s.latched v).w = s.w := rfl
@[simp] theorem State.latched_rv (v : Word) (s : State) : (s.latched v).rv = s.rv := rfl
@[simp] theorem State.latched_mp (v : Word) (s : State) : (s.latched v).mp = s.mp := rfl
@[simp] theorem State.latched_b (v : Word) (s : State) : (s.latched v).b = s.b := rfl
@[simp] theorem State.latched_cur (v : Word) (s : State) : (s.latched v).cur = v := rfl
@[simp] theorem State.latched_seq (v : Word) (s : State) : (s.latched v).seq = .busy := rfl
@[simp] theorem State.latched_done (v : Word) (s : State) : (s.latched v).done = false := rfl
@[simp] theorem State.latched_err (v : Word) (s : State) : (s.latched v).err = 0 := rfl
@[simp] theorem State.latched_mpv (v : Word) (s : State) : (s.latched v).mpv = s.mpv := rfl
@[simp] theorem State.latched_rvv (v : Word) (s : State) : (s.latched v).rvv = s.rvv := rfl
@[simp] theorem State.latched_agenda (v : Word) (s : State) : (s.latched v).agenda = .unit :: s.agenda := rfl
@[simp] theorem State.latched_response (v : Word) (s : State) : (s.latched v).response = s.response := rfl

/-! ### The reset event (R180) -/

@[simp] theorem resetEvent_w (s : State) : (resetEvent s).w = Vector.replicate 128 0 := rfl
@[simp] theorem resetEvent_rv (s : State) : (resetEvent s).rv = Vector.replicate 128 0 := rfl
@[simp] theorem resetEvent_mp (s : State) : (resetEvent s).mp = 0 := rfl
@[simp] theorem resetEvent_b (s : State) : (resetEvent s).b = Vector.replicate 512 0 := rfl
@[simp] theorem resetEvent_cur (s : State) : (resetEvent s).cur = 0 := rfl
@[simp] theorem resetEvent_seq (s : State) : (resetEvent s).seq = .idle := rfl
@[simp] theorem resetEvent_done (s : State) : (resetEvent s).done = false := rfl
@[simp] theorem resetEvent_err (s : State) : (resetEvent s).err = 0 := rfl
@[simp] theorem resetEvent_mpv (s : State) : (resetEvent s).mpv = false := rfl
@[simp] theorem resetEvent_rvv (s : State) : (resetEvent s).rvv = false := rfl
@[simp] theorem resetEvent_agenda (s : State) : (resetEvent s).agenda = s.agenda := rfl
@[simp] theorem resetEvent_response (s : State) : (resetEvent s).response = s.response := rfl

/-! ### The reset state (R34) -/

@[simp] theorem State.reset_w : State.reset.w = Vector.replicate 128 0 := rfl
@[simp] theorem State.reset_rv : State.reset.rv = Vector.replicate 128 0 := rfl
@[simp] theorem State.reset_mp : State.reset.mp = 0 := rfl
@[simp] theorem State.reset_b : State.reset.b = Vector.replicate 512 0 := rfl
@[simp] theorem State.reset_cur : State.reset.cur = 0 := rfl
@[simp] theorem State.reset_seq : State.reset.seq = .idle := rfl
@[simp] theorem State.reset_done : State.reset.done = false := rfl
@[simp] theorem State.reset_err : State.reset.err = 0 := rfl
@[simp] theorem State.reset_mpv : State.reset.mpv = false := rfl
@[simp] theorem State.reset_rvv : State.reset.rvv = false := rfl
@[simp] theorem State.reset_agenda : State.reset.agenda = [] := rfl
@[simp] theorem State.reset_response : State.reset.response = none := rfl

end Sys2Proof.Machine
end

