-- ==== Sys2Proof/Laws/Ops.lean ====
section
/-! SUPPORT. Everything the shared operations can do: the width test, the window's decoding, host accesses. -/

namespace Sys2Proof.Machine

/-! ### Widths and codes -/

theorem withWidth_some {ws : Wsel} {k : Width} (h : ws.width = some k) (s : State)
    (body : Width → Host.Outcome State Fault Refusal) : withWidth ws s body = body k := by
  simp [withWidth, h]

theorem withWidth_unsupported (s : State) (body : Width → Host.Outcome State Fault Refusal) :
    withWidth .unsupported s body = fail .internal s := rfl

/-- R150: the codes are told apart by their numbers. -/
theorem ErrorCode.code_inj {c d : ErrorCode} (h : c.code = d.code) : c = d := by
  revert h; cases c <;> cases d <;> decide

/-- R150: codes 7 to 15 are never produced. -/
theorem ErrorCode.code_le (c : ErrorCode) : c.code.toNat ≤ 6 := by cases c <;> decide

theorem ErrorCode.code_eq_zero (c : ErrorCode) : c.code = 0 ↔ c = .ok := by cases c <;> decide

/-! ### The register window -/

/-- R50: the register at an offset stands at that offset. -/
theorem regAt_some {off : Nat} {r : Reg} (h : regAt off = some r) : r.offset = off := by
  unfold regAt at h
  split_ifs at h <;> (cases h; simp only [Reg.offset]) <;> omega

theorem regAt_w (i : Fin 128) : regAt (0x200 + 4 * i.val) = some (.w i) := by
  unfold regAt
  rw [if_neg (by omega), if_neg (by omega), if_neg (by omega), dif_pos (by omega)]
  exact congrArg (some ∘ Reg.w) (Fin.ext (by simp only []; omega))

theorem regAt_rv (i : Fin 128) : regAt (0x400 + 4 * i.val) = some (.rv i) := by
  unfold regAt
  rw [if_neg (by omega), if_neg (by omega), if_neg (by omega), dif_neg (by omega), dif_pos (by omega)]
  exact congrArg (some ∘ Reg.rv) (Fin.ext (by simp only []; omega))

theorem regAt_b (j : Fin 512) : regAt (0x600 + j.val) = some (.b j) := by
  unfold regAt
  rw [if_neg (by omega), if_neg (by omega), if_neg (by omega), dif_neg (by omega), dif_neg (by omega),
    dif_pos (by omega)]
  exact congrArg (some ∘ Reg.b) (Fin.ext (by simp only []; omega))

/-- R50: each register is found at its own offset. -/
theorem regAt_at_offset : ∀ r : Reg, regAt r.offset = some r
  | .cmd => rfl
  | .status => rfl
  | .mp => rfl
  | .w i => regAt_w i
  | .rv i => regAt_rv i
  | .b j => regAt_b j

/-- R52, R53, R55: an access names a register whole exactly at the register's own offset and size. -/
theorem target_eq_some {off : Int} {n : Size} {r : Reg} :
    target off n = some r ↔ off = (r.offset : Int) ∧ n = r.size := by
  constructor
  · intro h
    unfold target at h
    split at h
    · split at h
      · rename_i k q hq
        split_ifs at h with hs
        cases h
        exact ⟨by rw [regAt_some hq]; rfl, hs.symm⟩
      · cases h
    · cases h
  · rintro ⟨rfl, rfl⟩
    have := regAt_at_offset r
    simp [target, this]

/-- R53, R57: what a write to a register can do. -/
theorem writeReg_some {r : Reg} {d : BusData} {s t : State} (h : writeReg r d s = some t) :
    (∃ v, r = .cmd ∧ d = .word v ∧ t = s.startCommand v) ∨
    (∃ i v, r = .w i ∧ d = .word v ∧ t = s.writeW i v) ∨
    (∃ j v, r = .b j ∧ d = .byte v ∧ t = s.writeB j v) := by
  cases r <;> cases d <;> simp_all [writeReg]

/-- R53: what a host write can do, and when it does it. -/
theorem hostWrite_some {s t : State} {off : Int} {d : BusData} (h : hostWrite s off d = some t) :
    s.seq = .idle ∧
    ((∃ v, off = 0x000 ∧ d = .word v ∧ t = s.startCommand v) ∨
     (∃ (i : Fin 128) (v : Word), off = 0x200 + 4 * (i.val : Int) ∧ d = .word v ∧ t = s.writeW i v) ∨
     (∃ (j : Fin 512) (v : Byte), off = 0x600 + (j.val : Int) ∧ d = .byte v ∧ t = s.writeB j v)) := by
  unfold hostWrite at h
  split at h
  · cases h
  · rename_i r hr
    split_ifs at h with hs
    obtain ⟨ho, -⟩ := target_eq_some.mp hr
    refine ⟨hs, ?_⟩
    obtain ⟨v, rfl, hd, ht⟩ | ⟨i, v, rfl, hd, ht⟩ | ⟨j, v, rfl, hd, ht⟩ := writeReg_some h
    · exact .inl ⟨v, by simpa [Reg.offset] using ho, hd, ht⟩
    · exact .inr (.inl ⟨i, v, by simpa [Reg.offset] using ho, hd, ht⟩)
    · exact .inr (.inr ⟨j, v, by simpa [Reg.offset] using ho, hd, ht⟩)

/-- R52: what a host read can answer. -/
theorem hostRead_cases (s : State) (off : Int) (n : Size) :
    hostRead s off n = .busError ∨
    ∃ r : Reg, off = (r.offset : Int) ∧ n = r.size ∧ (s.seq = .idle ∨ r.readableBusy = true) ∧
      hostRead s off n = .okRead (readReg s r) := by
  cases hr : target off n with
  | none => exact .inl (by simp [hostRead, hr])
  | some r =>
    obtain ⟨ho, hn⟩ := target_eq_some.mp hr
    by_cases hs : s.seq = .idle ∨ r.readableBusy = true
    · exact .inr ⟨r, ho, hn, hs, by simp [hostRead, hr, hs]⟩
    · exact .inl (by simp [hostRead, hr, hs])

/-- R11, R54, R59: what the host's turn does to the unit: nothing, or one of the three writes. -/
theorem hostAccess_cases (a : Access) (s : State) :
    (∃ r, hostAccess a s = { s with response := some r }) ∨
    (s.seq = .idle ∧ ∃ v, a = .write 0x000 (.word v) ∧
      hostAccess a s = { s.startCommand v with response := some .okWrite }) ∨
    (s.seq = .idle ∧ ∃ (i : Fin 128) (v : Word), a = .write (0x200 + 4 * (i.val : Int)) (.word v) ∧
      hostAccess a s = { s.writeW i v with response := some .okWrite }) ∨
    (s.seq = .idle ∧ ∃ (j : Fin 512) (v : Byte), a = .write (0x600 + (j.val : Int)) (.byte v) ∧
      hostAccess a s = { s.writeB j v with response := some .okWrite }) := by
  cases a with
  | read off n => exact .inl ⟨hostRead s off n, rfl⟩
  | write off d =>
    cases hw : hostWrite s off d with
    | none => exact .inl ⟨.busError, by simp [hostAccess, hw]⟩
    | some t =>
      obtain ⟨hs, ⟨v, rfl, rfl, rfl⟩ | ⟨i, v, rfl, rfl, rfl⟩ | ⟨j, v, rfl, rfl, rfl⟩⟩ := hostWrite_some hw
      · exact .inr (.inl ⟨hs, v, rfl, by simp only [hostAccess, hw]⟩)
      · exact .inr (.inr (.inl ⟨hs, i, v, rfl, by simp only [hostAccess, hw]⟩))
      · exact .inr (.inr (.inr ⟨hs, j, v, rfl, by simp only [hostAccess, hw]⟩))

end Sys2Proof.Machine
end

