-- ==== Sys2Proof/Laws/Agents.lean ====
section
/-! SUPPORT. Everything a command can do, and everything a step can do: the inversions that claims about all steps cite. -/

namespace Sys2Proof.Machine

/-! ### One inversion per command (R121, R124, R101, R104, R140) -/

theorem execB2w_cases (ws : Wsel) (len : Nat) (s : State) :
    (ws.width = none ∧ execB2w ws len s = .next (s.complete .internal)) ∨
    ∃ k, ws.width = some k ∧
      ((len ≠ k.blockSize ∧ execB2w ws len s = .next (s.complete .invalidBlockSize)) ∨
       (len = k.blockSize ∧
        execB2w ws len s = .next (({ s with w := wordsOfBlock k s.b s.w } : State).clearValid.complete .ok))) := by
  cases hw : ws.width with
  | none => exact .inl ⟨rfl, by simp [execB2w, withWidth, hw, fail]⟩
  | some k =>
    refine .inr ⟨k, rfl, ?_⟩
    by_cases hl : len = k.blockSize
    · exact .inr ⟨hl, by simp [execB2w, withWidth, hw, hl, succeed]⟩
    · exact .inl ⟨hl, by simp [execB2w, withWidth, hw, hl, fail]⟩

theorem execW2b_cases (ws : Wsel) (len : Nat) (s : State) :
    (ws.width = none ∧ execW2b ws len s = .next (s.complete .internal)) ∨
    ∃ k, ws.width = some k ∧
      ((len < k.blockSize ∧ execW2b ws len s = .next (s.complete .bufferTooSmall)) ∨
       (k.blockSize ≤ len ∧
        execW2b ws len s = .next (({ s with b := blockOfWords k s.w s.b } : State).complete .ok))) := by
  cases hw : ws.width with
  | none => exact .inl ⟨rfl, by simp [execW2b, withWidth, hw, fail]⟩
  | some k =>
    refine .inr ⟨k, rfl, ?_⟩
    by_cases hl : len < k.blockSize
    · exact .inl ⟨hl, by simp [execW2b, withWidth, hw, hl, fail]⟩
    · exact .inr ⟨Nat.le_of_not_lt hl, by simp [execW2b, withWidth, hw, hl, succeed]⟩

theorem execMprime_cases (ws : Wsel) (s : State) :
    (ws.width = none ∧ execMprime ws s = .next (s.complete .internal)) ∨
    ∃ k, ws.width = some k ∧
      ((s.w[0].getLsbD 0 = false ∧ execMprime ws s = .next (s.complete .modulusEven)) ∨
       (s.w[0].getLsbD 0 = true ∧
        execMprime ws s = .next (({ s with mp := negInverse s.w[0], mpv := true } : State).complete .ok))) := by
  cases hw : ws.width with
  | none => exact .inl ⟨rfl, by simp [execMprime, withWidth, hw, fail]⟩
  | some k =>
    refine .inr ⟨k, rfl, ?_⟩
    cases hb : s.w[0].getLsbD 0 with
    | false => exact .inl ⟨rfl, by simp only [execMprime, withWidth, hw, hb, fail]; rfl⟩
    | true => exact .inr ⟨rfl, by simp only [execMprime, withWidth, hw, hb, succeed]; rfl⟩

theorem execRcalc_cases (ws : Wsel) (s : State) :
    (ws.width = none ∧ execRcalc ws s = .next (s.complete .internal)) ∨
    ∃ k, ws.width = some k ∧
      ((val s.w k.wordCount = 0 ∧ execRcalc ws s = .next (s.complete .modulusZero)) ∨
       (val s.w k.wordCount ≠ 0 ∧
        execRcalc ws s = .next
          (({ s with
              rv := wordsOfNat k.wordCount (rValue k.wordCount (val s.w k.wordCount)) s.rv,
              rvv := true } : State).complete .ok))) := by
  cases hw : ws.width with
  | none => exact .inl ⟨rfl, by simp [execRcalc, withWidth, hw, fail]⟩
  | some k =>
    refine .inr ⟨k, rfl, ?_⟩
    by_cases hn : val s.w k.wordCount = 0
    · exact .inl ⟨hn, by simp [execRcalc, withWidth, hw, hn, fail]⟩
    · exact .inr ⟨hn, by simp [execRcalc, withWidth, hw, hn, succeed]⟩

/-- R31, R150, R156: what every command does: it completes, with a code that its word may report; unless the code is `OK`
it applied no update; and no command touches `CUR`, the turns to come, or the host's last answer. -/
theorem exec_completes (i : Instr) (s : State) : ∃ (u : State) (e : ErrorCode),
    exec i s = .next (u.complete e) ∧ (e ≠ .ok → u = s) ∧ u.cur = s.cur ∧ u.agenda = s.agenda ∧
      u.response = s.response ∧ ∀ c, decode c = .ok i → e ∈ Safety.reportable c := by
  cases i with
  | b2w ws len =>
    obtain ⟨-, he⟩ | ⟨k, -, ⟨-, he⟩ | ⟨-, he⟩⟩ := execB2w_cases ws len s
    all_goals exact ⟨_, _, he, by simp, rfl, rfl, rfl, fun c h => by simp [Safety.reportable, h]⟩
  | w2b ws len =>
    obtain ⟨-, he⟩ | ⟨k, -, ⟨-, he⟩ | ⟨-, he⟩⟩ := execW2b_cases ws len s
    all_goals exact ⟨_, _, he, by simp, rfl, rfl, rfl, fun c h => by simp [Safety.reportable, h]⟩
  | mprime ws =>
    obtain ⟨-, he⟩ | ⟨k, -, ⟨-, he⟩ | ⟨-, he⟩⟩ := execMprime_cases ws s
    all_goals exact ⟨_, _, he, by simp, rfl, rfl, rfl, fun c h => by simp [Safety.reportable, h]⟩
  | rcalc ws =>
    obtain ⟨-, he⟩ | ⟨k, -, ⟨-, he⟩ | ⟨-, he⟩⟩ := execRcalc_cases ws s
    all_goals exact ⟨_, _, he, by simp, rfl, rfl, rfl, fun c h => by simp [Safety.reportable, h]⟩
  | zero => exact ⟨s.zeroData, .ok, rfl, by simp, rfl, rfl, rfl, fun c h => by simp [Safety.reportable, h]⟩

/-! ### The completion step and the turns -/

/-- R31, R142: the completion step performs the decoded command, or reports that the word is none. -/
theorem completion_cases (s : State) :
    (∃ i, decode s.cur = .ok i ∧ completion s = exec i s) ∨
    (∃ e, decode s.cur = .error e ∧ completion s = .next (s.complete .illegalCommand)) := by
  cases hd : decode s.cur with
  | ok i => exact .inl ⟨i, rfl, by simp only [completion, hd]⟩
  | error e => exact .inr ⟨e, rfl, by simp only [completion, hd, execIllegal, fail]⟩

/-- R31, R150, R156: the same of the completion step, whatever the latched word. -/
theorem completion_completes (s : State) : ∃ (u : State) (e : ErrorCode),
    completion s = .next (u.complete e) ∧ (e ≠ .ok → u = s) ∧ u.cur = s.cur ∧ u.agenda = s.agenda ∧
      u.response = s.response ∧ e ∈ Safety.reportable s.cur := by
  obtain ⟨i, hd, hc⟩ | ⟨_, hd, hc⟩ := completion_cases s
  · obtain ⟨u, e, h, hu, h1, h2, h3, h4⟩ := exec_completes i s
    exact ⟨u, e, by rw [hc, h], hu, h1, h2, h3, h4 _ hd⟩
  · exact ⟨s, _, hc, by simp, rfl, rfl, rfl, by simp [Safety.reportable, hd]⟩

/-- R11, R60: the turns. -/
theorem step_cases (s : State) :
    (s.agenda = [] ∧ step s = unitTurn s) ∨
    (∃ a rest, s.agenda = .host a :: rest ∧ step s = .next (hostAccess a { s with agenda := rest })) ∨
    (∃ rest, s.agenda = .unit :: rest ∧ step s = unitTurn { s with agenda := rest }) ∨
    (∃ rest, s.agenda = .reset :: rest ∧ step s = .next (resetEvent { s with agenda := rest })) := by
  unfold step takeTurn
  rcases s.agenda with _ | ⟨a | _ | _, rest⟩
  · exact .inl ⟨rfl, rfl⟩
  · exact .inr (.inl ⟨_, _, rfl, rfl⟩)
  · exact .inr (.inr (.inl ⟨_, rfl, rfl⟩))
  · exact .inr (.inr (.inr ⟨_, rfl, rfl⟩))

theorem unitTurn_busy {s : State} (h : s.seq = .busy) : unitTurn s = completion s := by simp [unitTurn, h]

theorem unitTurn_idle {s : State} (h : s.seq = .idle) : unitTurn s = .next s := by simp [unitTurn, h]

/-- R31: the unit's turn with a command in flight, whether scheduled or for want of any other turn. -/
theorem step_of_busy {s : State} (hb : s.seq = .busy) (ha : s.agenda = [] ∨ ∃ rest, s.agenda = .unit :: rest) :
    step s = completion { s with agenda := s.agenda.tail } := by
  rcases ha with ha | ⟨rest, ha⟩
  · have hs : ({ s with agenda := s.agenda.tail } : State) = s := by cases s; simp_all
    rw [hs, step, takeTurn, ha]
    exact unitTurn_busy hb
  · rw [step, takeTurn, ha]
    exact unitTurn_busy (s := { s with agenda := rest }) hb

/-- R11, R182: the unit's turn while it is idle, whether scheduled or for want of any other turn. -/
theorem step_of_idle {s : State} (hi : s.seq = .idle) (ha : s.agenda = [] ∨ ∃ rest, s.agenda = .unit :: rest) :
    step s = .next { s with agenda := s.agenda.tail } := by
  rcases ha with ha | ⟨rest, ha⟩
  · have hs : ({ s with agenda := s.agenda.tail } : State) = s := by cases s; simp_all
    rw [hs, step, takeTurn, ha]
    exact unitTurn_idle hi
  · rw [step, takeTurn, ha]
    exact unitTurn_idle (s := { s with agenda := rest }) hi

/-- R11, R180: the turn of reset. -/
theorem step_of_reset {s : State} {rest : List Event} (ha : s.agenda = .reset :: rest) :
    step s = .next (resetEvent { s with agenda := rest }) := by
  rw [step, takeTurn, ha]

/-- R11: the turn of the host. -/
theorem step_of_host {s : State} {a : Access} {rest : List Event} (ha : s.agenda = .host a :: rest) :
    step s = .next (hostAccess a { s with agenda := rest }) := by
  rw [step, takeTurn, ha]

/-- R58: the host's turn with a command in flight changes nothing but the host's answer. -/
theorem hostAccess_of_busy {s : State} (hb : s.seq = .busy) (a : Access) :
    ∃ r, hostAccess a s = { s with response := some r } := by
  obtain h | ⟨hi, -⟩ | ⟨hi, -⟩ | ⟨hi, -⟩ := hostAccess_cases a s
  · exact h
  all_goals simp [hb] at hi

/-- R60: an access takes no turn but its own. -/
theorem hostAccess_agenda (a : Access) (s : State) : (hostAccess a s).agenda = s.agenda := by
  obtain ⟨r, h⟩ | ⟨-, v, -, h⟩ | ⟨-, i, v, -, h⟩ | ⟨-, j, v, -, h⟩ := hostAccess_cases a s <;> simp [h]

/-- R13: every access is answered. -/
theorem hostAccess_response (a : Access) (s : State) : ∃ r, (hostAccess a s).response = some r := by
  obtain ⟨r, h⟩ | ⟨-, v, -, h⟩ | ⟨-, i, v, -, h⟩ | ⟨-, j, v, -, h⟩ := hostAccess_cases a s <;> exact ⟨_, by rw [h]⟩

/-! ### The end of a run (R193) -/

theorem isAccess_all_false (l : List Event) :
    (∀ e ∈ l, Safety.isAccess e = false) ↔ ∀ a : Access, Event.host a ∉ l := by
  constructor
  · intro h a ha
    simpa [Safety.isAccess] using h _ ha
  · intro h e he
    cases e with
    | host a => exact absurd he (h a)
    | unit => rfl
    | reset => rfl

theorem finalState_eq_some {s : State} {r : Safety.Registers} :
    Safety.finalState s = some r ↔ Safety.RunOver s ∧ Safety.registers s = r := by
  unfold Safety.finalState
  split
  · next h => exact ⟨fun hr => ⟨h, Option.some.inj hr⟩, fun hr => congrArg some hr.2⟩
  · next h => exact ⟨(fun hr => nomatch hr), fun hr => absurd hr.1 h⟩

/-! ### Runs -/

/-- One step of a run. -/
theorem run_succ_of_next {s t : State} (h : step s = .next t) (n : Nat) :
    Host.Core.run Sys2Proof.core (n + 1) s = Host.Core.run Sys2Proof.core n t := by
  have hc : Sys2Proof.core.step s = .next t := h
  simp only [Host.Core.run, hc]

theorem run_zero (s : State) : Host.Core.run Sys2Proof.core 0 s = .next s := rfl

end Sys2Proof.Machine
end

