-- ==== Sys2Proof/Laws/PerInstr.lean ====
section
/-! SUPPORT. What is stated of every command as syntax, one lemma per constructor. -/

namespace Sys2Proof.Laws

/-- R83: the word a command encodes to spells the row of its own mnemonic in the match and mask table. -/
def RowSpelled.Statement (i : Instr) : Prop :=
  ∃ r ∈ opcodeMap, r.mnemonic = mnemonic i ∧ r.spells (encode i) = true

/-- A word of format `C` under a mask that keeps all but `LEN` and `WSEL` is its opcode. -/
theorem RowSpelled.masked_long (len : BitVec 10) (ws : BitVec 2) (op : BitVec 4) :
    commandWord len ws op &&& 0xFC00FFCF = op.setWidth 32 := by
  apply BitVec.eq_of_getLsbD_eq
  intro i hi
  simp only [commandWord, BitVec.getLsbD_and, BitVec.getLsbD_append, BitVec.getLsbD_setWidth]
  interval_cases i <;> simp

/-- The same for a word with `LEN = 0` under a mask that keeps all but `WSEL`. -/
theorem RowSpelled.masked_short (ws : BitVec 2) (op : BitVec 4) :
    commandWord 0 ws op &&& 0xFFFFFFCF = op.setWidth 32 := by
  apply BitVec.eq_of_getLsbD_eq
  intro i hi
  simp only [commandWord, BitVec.getLsbD_and, BitVec.getLsbD_append, BitVec.getLsbD_setWidth]
  interval_cases i <;> simp

theorem RowSpelled.b2w (ws : Wsel) (len : Nat) : RowSpelled.Statement (.b2w ws len) :=
  ⟨⟨"B2W", 0x00000001, 0xFC00FFCF⟩, by simp [opcodeMap], rfl, by
    simp only [OpcodeRow.spells, encode, RowSpelled.masked_long]; rfl⟩

theorem RowSpelled.w2b (ws : Wsel) (len : Nat) : RowSpelled.Statement (.w2b ws len) :=
  ⟨⟨"W2B", 0x00000002, 0xFC00FFCF⟩, by simp [opcodeMap], rfl, by
    simp only [OpcodeRow.spells, encode, RowSpelled.masked_long]; rfl⟩

theorem RowSpelled.mprime (ws : Wsel) : RowSpelled.Statement (.mprime ws) :=
  ⟨⟨"MPRIME", 0x00000003, 0xFFFFFFCF⟩, by simp [opcodeMap], rfl, by
    simp only [OpcodeRow.spells, encode, RowSpelled.masked_short]; rfl⟩

theorem RowSpelled.rcalc (ws : Wsel) : RowSpelled.Statement (.rcalc ws) :=
  ⟨⟨"RCALC", 0x00000004, 0xFFFFFFCF⟩, by simp [opcodeMap], rfl, by
    simp only [OpcodeRow.spells, encode, RowSpelled.masked_short]; rfl⟩

theorem RowSpelled.zero : RowSpelled.Statement .zero :=
  ⟨⟨"ZERO", 0x00000005, 0xFFFFFFFF⟩, by simp [opcodeMap], rfl, by decide⟩

end Sys2Proof.Laws
end

