-- ==== Sys2Proof/Tests/Slice0.lean ====
section
/-! SUPPORT. The package's own tests: ill-formed terms that WellFormed refuses, words written out from the spec's encodings,
one step of each command on vectors of spec/95_test_vectors.md, and for each statement with hypotheses states that meet them. -/

-- One thread for this file's many kernel evaluations: elaborated side by side, their stacks exceed the check's memory limit.
set_option Elab.async false

namespace Sys2Proof.Tests

open Sys2Proof Sys2Proof.Machine Sys2Proof.Safety

/-! ### WellFormed (R81) -/

theorem test_wf_b2w_length_1024 : (Instr.b2w .w1024 1024).wellFormed = false := by decide
theorem test_wf_w2b_length_1024 : (Instr.w2b .w4096 1024).wellFormed = false := by decide
theorem test_wf_b2w_length_1023 : (Instr.b2w .w1024 1023).wellFormed = true := by decide

/-! ### Words written out bit by bit from R80: Z1 (6), LEN (10), Z0 (10), WSEL (2), OP (4) -/

/-- R90: `B2W w4096, 512`. -/
theorem test_decode_b2w : decode 0b000000_1000000000_0000000000_10_0001 = .ok (.b2w .w4096 512) := by decide
/-- R90: `W2B w1024, 1023`. -/
theorem test_decode_w2b : decode 0b000000_1111111111_0000000000_00_0010 = .ok (.w2b .w1024 1023) := by decide
/-- R90: `MPRIME w2048`. -/
theorem test_decode_mprime : decode 0b000000_0000000000_0000000000_01_0011 = .ok (.mprime .w2048) := by decide
/-- R86, vector 2.7: `RCALC w?` is a decodable command. -/
theorem test_decode_rcalc : decode 0b000000_0000000000_0000000000_11_0100 = .ok (.rcalc .unsupported) := by decide
/-- R90: `ZERO`. -/
theorem test_decode_zero : decode 0b000000_0000000000_0000000000_00_0101 = .ok .zero := by decide
/-- R85: the four ways not to be a command (vectors 2.5 rows 6, 9, 11, 2). -/
theorem test_decode_opcode_6 : decode 0x00000006 = .error .noSuchOpcode := by decide
theorem test_decode_bit_15 : decode 0x00008003 = .error .reservedBits := by decide
theorem test_decode_bit_26 : decode 0x04800001 = .error .reservedBits := by decide
theorem test_decode_mprime_length : decode 0x00010003 = .error .lengthNotZero := by decide
theorem test_decode_zero_width : decode 0x00000015 = .error .zeroFieldsNotZero := by decide
theorem test_table_word_b2w : decodeTableWord 32 0x00800031 = some (.b2w .unsupported 128) := by decide
/-- R88: the written form. -/
theorem test_written_b2w : (Instr.b2w .w1024 128).written = "B2W w1024, 128" := by decide +kernel

/-! ### States of the vectors -/

/-- A state with some words of `W` set and the validity flags as given. -/
def withW (v : Vector Word 128) (flags : Bool) : State := { State.reset with w := v, mpv := flags, rvv := flags }

/-- A state with the bytes `B[j] = f j` below `n`. -/
def withB (n : Nat) (f : Nat → Nat) (flags : Bool) : State :=
  { State.reset with
    w := Vector.replicate 128 0xAAAAAAAA
    b := Vector.ofFn fun j => if j.val < n then BitVec.ofNat 8 (f j.val) else 0
    mpv := flags, rvv := flags }

/-- A property of the state that an outcome leads to. -/
def leadsTo (o : Host.Outcome State Fault Refusal) (p : State → Bool) : Bool :=
  match o with
  | .next t => p t
  | .fault _ => false
  | .refused _ => false

/-- A busy unit with the word `c` latched, the validity flags set, and the unit's turn next. -/
def busyWith (c : Word) : State :=
  { State.reset with cur := c, seq := .busy, mpv := true, rvv := true, agenda := [.unit] }

/-! ### One step of each command -/

/-- Vector 2.1 row 10. -/
theorem test_mprime_deadbeef : leadsTo (exec (.mprime .w2048) (withW (Vector.replicate 128 0xDEADBEEF) false))
    (fun t => t.mp == 0x6FB4CFF1 && t.status == 0x00000102) = true := by decide +kernel
/-- Vector 2.1 row 13. -/
theorem test_mprime_even : leadsTo (exec (.mprime .w1024) (withW (Vector.replicate 128 2) false))
    (fun t => t.mp == 0 && t.status == 0x00000052) = true := by decide +kernel
/-- Vector 2.2 row 6: `n = 7`, `RCALC w2048`. -/
theorem test_rcalc_seven : leadsTo (exec (.rcalc .w2048) (withW ((Vector.replicate 128 0).set 0 7) false))
    (fun t => t.rv[0] == 2 && t.rv[1] == 0 && t.status == 0x00000202) = true := by decide +kernel
/-- Vector D1024: the modulus `B[j] = (0x81 + 7*j) mod 256`, `B[127] = 0xFB`. -/
theorem test_rcalc_d1024 :
    leadsTo (exec (.b2w .w1024 128) (withB 128 (fun j => if j = 127 then 0xFB else 0x81 + 7 * j) true)) (fun s =>
      leadsTo (exec (.rcalc .w1024) s) (fun t => t.rv[0] == 0x9D393E44 && t.rv[31] == 0x6E2A0784 && t.rv[32] == 0))
    = true := by decide +kernel
/-- Vector 2.3 row 1. -/
theorem test_b2w_w1024 : leadsTo (exec (.b2w .w1024 128) (withB 512 id true))
    (fun t => t.w[0] == 0x7C7D7E7F && t.w[31] == 0x00010203 && t.w[32] == 0xAAAAAAAA && t.status == 0x00000002)
    = true := by decide +kernel
/-- Vector 2.3 row 7: the block size of another width. -/
theorem test_b2w_wrong_length : leadsTo (exec (.b2w .w1024 256) (withB 512 id true))
    (fun t => t.w[0] == 0xAAAAAAAA && t.status == 0x00000312) = true := by decide +kernel
/-- Vector 2.4 row 5: a capacity above the block size. -/
theorem test_w2b_large_capacity :
    leadsTo (exec (.w2b .w1024 1023)
      { withW (Vector.ofFn fun i => BitVec.ofNat 32
          (((4 * i.val + 3) * 256 + 4 * i.val + 2) * 65536 + (4 * i.val + 1) * 256 + 4 * i.val)) true with
        b := Vector.replicate 512 0xEE })
      (fun t => t.b[0] == 0x7F && t.b[1] == 0x7E && t.b[126] == 0x01 && t.b[127] == 0x00 && t.b[128] == 0xEE
        && t.status == 0x00000302) = true := by decide +kernel
/-- Vector 2.4 row 9. -/
theorem test_w2b_capacity_511 : leadsTo (exec (.w2b .w4096 511) (withB 512 (fun _ => 0xEE) true))
    (fun t => t.b[0] == 0xEE && t.b[511] == 0xEE && t.status == 0x00000322) = true := by decide +kernel
/-- Vector 2.5 row 1. -/
theorem test_zero : leadsTo (exec .zero { withB 512 (fun _ => 0x44) true with cur := 5, mp := 0x33333333 })
    (fun t => t.w[127] == 0 && t.b[511] == 0 && t.mp == 0 && t.status == 0x00000002 && t.cur == 5)
    = true := by decide +kernel
/-- Vector 2.5 row 5: the step on the all-ones word. -/
theorem test_illegal_all_ones : leadsTo (step (busyWith 0xFFFFFFFF))
    (fun t => t.status == 0x00000362 && t.cur == 0xFFFFFFFF) = true := by decide +kernel

/-! ### Host accesses (vectors 2.6 and P6) and placing a word -/

/-- Row 19 and row 20. -/
theorem test_write_w0 : leadsTo (step { withW (Vector.replicate 128 0) true with agenda := [wr32 0x200 0xDEADBEEF] })
    (fun t => t.w[0] == 0xDEADBEEF && !t.mpv && !t.rvv && t.response == some .okWrite) = true := by decide +kernel
theorem test_write_b511 : leadsTo (step { State.reset with agenda := [wr8 0x7FF 0x5A] })
    (fun t => t.b[511] == 0x5A && t.response == some .okWrite) = true := by decide +kernel
/-- Row 30: a command written while busy is lost. -/
theorem test_write_command_busy : leadsTo (step { busyWith 3 with agenda := [wr32 0x000 5] })
    (fun t => t.cur == 3 && t.response == some .busError) = true := by decide +kernel
/-- Row 18 and row 14. -/
theorem test_write_rv127 : (hostWrite State.reset 0x5FC (.word 1)).isNone = true := by decide +kernel
theorem test_read_outside : hostRead State.reset 0x800 .word = .busError := by decide +kernel
/-- P6: reset with `ZERO` in flight. -/
theorem test_reset_in_flight : leadsTo (step { busyWith 5 with agenda := [.reset] })
    (fun t => t.status == 0 && t.cur == 0 && t.seq == .idle) = true := by decide +kernel
theorem test_fetch_word_runs : leadsTo (step (State.reset.withFetchWord 32 0x00000034))
    (fun t => t.status == 0x00000032 && t.cur == 0x34) = true := by decide +kernel

/-! ### States and operands that meet the statements' hypotheses

One theorem per statement with hypotheses, named after it; a conjunct per clause. -/

theorem witness_DecodeOfEncodeReturnsTheCommand :
    (Instr.b2w .unsupported 1023).wellFormed = true ∧ (Instr.w2b .w1024 0).wellFormed = true := by decide

theorem witness_EncodeOfDecodeReturnsTheWord : decode 0x03FF0032 = .ok (.w2b .unsupported 1023) := by decide

theorem witness_DecoderAcceptsExactlyTheOpcodeMap :
    decode 0x00000024 = .ok (.rcalc .w4096) ∧ ∃ r ∈ opcodeMap, r.spells 0x00000024 = true :=
  ⟨by decide, ⟨"RCALC", 0x00000004, 0xFFFFFFCF⟩, by decide, by decide⟩

theorem witness_IllegalWordsCompleteWithIllegalCommand :
    IllegalWord 0x00000000 ∧ IllegalWord 0x0000000F ∧ IllegalWord 0x04000001 ∧ IllegalWord 0x00000041 ∧
    IllegalWord 0x00010003 ∧ IllegalWord 0x00000015 ∧ ¬ IllegalWord 0x00000005 ∧
    ∃ s : State, s.seq = .idle ∧ s.agenda = .host (.write 0x000 (.word 0xFFFFFFFF)) :: .unit :: [] := by
  refine ⟨?_, ?_, ?_, ?_, ?_, ?_, ?_, { State.reset with agenda := _ }, rfl, rfl⟩ <;> unfold IllegalWord <;> decide

theorem witness_CommandWordsOfTheTable : (1023 : Nat) < 1024 := by decide

theorem witness_StepRunsTheLatchedCommand :
    (busyWith 5).seq = .busy ∧ (busyWith 5).agenda = .unit :: [] ∧ decode (busyWith 5).cur = .ok .zero ∧
    ({ busyWith 5 with agenda := [] } : State).agenda = [] ∧
    decodeTableWord 32 0x01000011 = some (.b2w .w2048 256) := by decide +kernel

theorem witness_CommandStartLatchesEveryWord :
    (∃ s : State, s.agenda = .host (.write 0x000 (.word 0)) :: [] ∧ s.seq = .idle) ∧
    (∃ s : State, s.agenda = .host (.write 0x000 (.word 0xFFFFFFFF)) :: [] ∧ s.seq = .busy) :=
  ⟨⟨{ State.reset with agenda := _ }, rfl, rfl⟩, ⟨{ busyWith 5 with agenda := _ }, rfl, rfl⟩⟩

theorem witness_FailedCommandChangesOnlyErrDoneSeq :
    (busyWith 0x34).seq = .busy ∧ (busyWith 0x34).agenda = .unit :: [] ∧
    leadsTo (step (busyWith 0x34)) (fun t => t.err != 0) = true := by decide +kernel

theorem witness_SequencerMovesOnlyAtStartCompletionReset :
    leadsTo (step { State.reset with agenda := [wr32 0 3] }) (fun t => t.seq == .busy) = true ∧
    leadsTo (step (busyWith 3)) (fun t => t.seq == .idle) = true ∧
    leadsTo (step { busyWith 3 with agenda := [.reset] }) (fun t => t.seq == .idle) = true := by decide +kernel

theorem witness_ValidityFlagsChangeOnlyAsListed :
    leadsTo (exec (.mprime .w1024) (withW (Vector.replicate 128 1) false)) (fun t => t.err == 0 && t.mpv) = true ∧
    leadsTo (exec (.rcalc .w4096) (withW (Vector.replicate 128 1) false)) (fun t => t.err == 0 && t.rvv) = true ∧
    leadsTo (exec (.b2w .w2048 256) (withW (Vector.replicate 128 1) true)) (fun t => t.err == 0 && !t.mpv) = true ∧
    leadsTo (exec .zero (withW (Vector.replicate 128 1) true)) (fun t => !t.mpv && !t.rvv) = true ∧
    leadsTo (step { withW (Vector.replicate 128 1) true with agenda := [wr32 0x3FC 1] })
      (fun t => t.response == some .okWrite && !t.mpv) = true := by decide +kernel

theorem witness_ResultsChangeOnlyByTheirCommands :
    leadsTo (step { busyWith 3 with w := Vector.replicate 128 1 }) (fun t => t.mp != 0) = true ∧
    leadsTo (step { busyWith 4 with w := (Vector.replicate 128 0).set 0 7 }) (fun t => t.rv != Vector.replicate 128 0)
      = true := by decide +kernel

/-- A state in which a command has completed: it meets the control invariant and has `DONE = 1`. -/
def afterZero : State := { State.reset with cur := 5, done := true }

theorem afterZero_control : ControlInv afterZero where
  busy_not_done := by decide
  err_zero_until_done := by decide
  err_fits_command := fun _ => ⟨.ok, by decide, by decide⟩
  untouched_before_first := by decide

theorem witness_StatusReadsTheFlagsInTheirPlaces :
    (∃ s : State, s.agenda = .host (.read 0x004 .word) :: []) ∧ (∃ s : State, ControlInv s) ∧
    ∃ s : State, ControlInv s ∧ s.seq = .busy :=
  ⟨⟨{ State.reset with agenda := _ }, rfl⟩, ⟨afterZero, afterZero_control⟩,
    afterZero.startCommand 3, ⟨fun _ => rfl, fun _ => rfl, (fun h => nomatch h), (fun h => nomatch h)⟩, rfl⟩

theorem witness_EachRegisterStandsAtItsOwnOffset :
    afterZero.seq = .idle ∧ target 0x3FC .word = some (.w 127) ∧ target 0x7FF .byte = some (.b 511) := by decide +kernel

theorem witness_HostReadAnswersWholeRegistersAndChangesNothing :
    ∃ s : State, s.agenda = .host (.read 0x5FC .word) :: [] ∧ hostRead s 0x5FC .word = .okRead (.word s.rv[127]) :=
  ⟨{ State.reset with agenda := _ }, rfl, by decide +kernel⟩

theorem witness_HostWriteActsOnCommandWordsAndBytesOnly :
    (∃ s : State, s.agenda = .host (.write 0x200 (.word 1)) :: [] ∧ s.seq = .idle ∧
      (0x200 : Int) = 0x200 + 4 * ((0 : Fin 128).val : Int)) ∧
    (∃ s : State, s.agenda = .host (.write 0x7FF (.byte 1)) :: [] ∧ s.seq = .idle ∧
      (0x7FF : Int) = 0x600 + ((511 : Fin 512).val : Int)) ∧
    (∃ s : State, s.agenda = .host (.write 0x000 (.word 1)) :: [] ∧ s.seq = .idle) ∧
    (∃ s : State, s.agenda = .host (.write 0x200 (.word 1)) :: [] ∧ s.seq = .busy) ∧
    (∃ s : State, s.agenda = .host (.write 0x004 (.word 1)) :: [] ∧ s.seq = .idle ∧
      ∀ q : Reg, q.writable = true → ¬ ((0x004 : Int) = (q.offset : Int) ∧ (BusData.word 1).size = q.size)) := by
  refine ⟨⟨{ State.reset with agenda := _ }, rfl, rfl, rfl⟩, ⟨{ State.reset with agenda := _ }, rfl, rfl, rfl⟩,
    ⟨{ State.reset with agenda := _ }, rfl, rfl⟩, ⟨{ busyWith 5 with agenda := _ }, rfl, rfl⟩,
    ⟨{ State.reset with agenda := _ }, rfl, rfl, ?_⟩⟩
  intro q hq h
  cases q <;> simp [Reg.writable, Reg.offset] at hq h <;> omega

theorem witness_RefusedAccessChangesNothing :
    leadsTo (step { State.reset with agenda := [rd32 0x00C] }) (fun t => t.response == some .busError) = true := by
  decide +kernel

theorem witness_WrongSizesAndUnmappedOffsetsAreRefused :
    (BusData.word 0).size = .word ∧ (BusData.half 0).size = .half ∧ (BusData.byte 0).size = .byte ∧
    hostRead State.reset (-4) .word = .busError ∧ hostRead State.reset 0x800 .byte = .busError ∧
    hostRead State.reset 0x00C .word = .busError ∧ hostRead State.reset 0x1FF .byte = .busError ∧
    hostRead State.reset 0x200 .half = .busError ∧ hostRead State.reset 0x5FF .byte = .busError ∧
    hostRead State.reset 0x600 .word = .busError ∧ hostRead State.reset 0x202 .word = .busError ∧
    hostRead State.reset 0x008 .word ≠ .busError ∧ hostRead State.reset 0x200 .word ≠ .busError := by decide +kernel

theorem witness_ReadOnlyRegistersRefuseWrites :
    ((0x5FC : Int) = 0x400 + 4 * ((127 : Fin 128).val : Int)) ∧
    ∃ s : State, s.agenda = .host (.write 0x5FC (.word 1)) :: [] :=
  ⟨rfl, { State.reset with agenda := _ }, rfl⟩

theorem witness_BusyUnitAnswersOnlyCommandAndStatusReads :
    (∃ s : State, s.seq = .busy ∧ s.agenda = .host (.read 0x000 .word) :: []) ∧
    (∃ s : State, s.seq = .busy ∧ s.agenda = .host (.read 0x004 .word) :: []) ∧
    (∃ s : State, s.seq = .busy ∧ s.agenda = .host (.read 0x008 .word) :: []) :=
  ⟨⟨{ busyWith 3 with agenda := _ }, rfl, rfl⟩, ⟨{ busyWith 3 with agenda := _ }, rfl, rfl⟩,
    ⟨{ busyWith 3 with agenda := _ }, rfl, rfl⟩⟩

theorem witness_DoneMeansTheUnitHasFinished :
    ∃ s : State, ControlInv s ∧ s.agenda = .host (.read 0x004 .word) :: .unit :: [] ∧ s.status.getLsbD 1 = true ∧
      leadsTo (step s) (fun _ => true) = true :=
  ⟨{ afterZero with agenda := .host (.read 0x004 .word) :: .unit :: [] },
    ⟨afterZero_control.1, afterZero_control.2, afterZero_control.3, afterZero_control.4⟩, rfl,
    by decide +kernel, by decide +kernel⟩

theorem witness_MprimeComputesTheNegatedInverse :
    (withW (Vector.replicate 128 0xFFFFFFFF) false).w[0].toNat % 2 = 1 ∧ Wsel.w4096 ≠ .unsupported ∧
    (withW (Vector.replicate 128 0xFFFFFFFE) false).w[0].toNat % 2 = 0 ∧
    opOf 0x00010003 = 3 ∧ 64 ≤ (0x00010003 : Word).toNat ∧ opOf 0x00000043 = 3 ∧ 64 ≤ (0x00000043 : Word).toNat := by
  decide +kernel

theorem witness_MprimeInvertsTheWholeModulus :
    Wsel.w1024.width = some .w1024 ∧ (withW (Vector.replicate 128 1) false).w[0].toNat % 2 = 1 ∧
    (0 : Word).toNat % 2 = 0 := by decide +kernel

theorem witness_RcalcComputesTheRValue :
    Wsel.w4096.width = some .w4096 ∧ val (withW (Vector.replicate 128 0xFFFFFFFF) false).w 128 ≠ 0 ∧
    val (withW (Vector.replicate 128 0) false).w 128 = 0 ∧
    opOf 0x00050004 = 4 ∧ 64 ≤ (0x00050004 : Word).toNat := by decide +kernel

theorem witness_RcalcStoresTheLeastResidue :
    Wsel.w2048.width = some .w2048 ∧ val ((Vector.replicate 128 0).set 0 1) 64 ≠ 0 := by decide +kernel

theorem witness_RcalcCornerCases :
    Wsel.w1024.width = some .w1024 ∧ val (Vector.replicate 128 0) 32 = 0 ∧
    val ((Vector.replicate 128 0).set 31 0x80000000) 32 = 2 ^ 1023 ∧ 1023 ≤ 32 * 32 - 1 ∧
    val ((Vector.replicate 128 0).set 0 1) 32 = 2 ^ 0 ∧ val ((Vector.replicate 128 0).set 0 7) 32 < 2 ^ (32 * 1) ∧
    (Vector.replicate 128 0xFFFFFFFF : Vector Word 128)[31] = 0xFFFFFFFF := by decide +kernel

/-- Two states that differ only above word 31, with a modulus below it. -/
def lowSeven (top : Word) : State := withW (((Vector.replicate 128 0).set 0 7).set 127 top) false

theorem witness_MontgomeryResultsDependOnTheModulusAlone :
    Wsel.w1024.width = some .w1024 ∧
    (∀ i : Fin 128, i.val < 32 → (lowSeven 0).w[i] = (lowSeven 1).w[i]) ∧ lowSeven 0 ≠ lowSeven 1 := by decide +kernel

theorem witness_B2wConvertsTheBlock :
    Wsel.w1024.width = some .w1024 ∧ 129 ≠ Width.w1024.blockSize ∧ opOf 0x00800041 = 1 ∧
    (0x00800041 : Word).toNat / 2 ^ 6 % 2 ^ 10 ≠ 0 ∧ (1023 : Nat) < 1024 := by decide +kernel

theorem witness_B2wKeepsTheValue : Wsel.w4096.width = some .w4096 := by decide

theorem witness_W2bConvertsTheWords :
    Wsel.w2048.width = some .w2048 ∧ Width.w2048.blockSize ≤ 256 ∧ 255 < Width.w2048.blockSize ∧
    opOf 0x00800082 = 2 ∧ (0x00800082 : Word).toNat / 2 ^ 6 % 2 ^ 10 ≠ 0 := by decide +kernel

theorem witness_MarshalRoundTrips :
    Wsel.w1024.width = some .w1024 ∧
    leadsTo (exec (.b2w .w1024 128) (withB 128 id false)) (fun t => t.w[0] == 0x7C7D7E7F) = true ∧
    leadsTo (exec (.b2w .w1024 128) (withB 129 id true)) (fun t => t.w[0] == 0x7C7D7E7F) = true := by decide +kernel

theorem witness_StorageBeyondTheWidthIsInert :
    Wsel.w1024.width = some .w1024 ∧ AgreeBelow .w1024 (lowSeven 0) (lowSeven 1) := by
  have h : ∀ i : Fin 128, i.val < 32 → (lowSeven 0).w[i] = (lowSeven 1).w[i] := by decide +kernel
  exact ⟨rfl, fun i hi hk => h ⟨i, hi⟩ hk, fun _ _ _ => rfl, fun _ _ _ => rfl, rfl, rfl, rfl, rfl, rfl, rfl, rfl⟩

theorem witness_ZeroClearsEveryDataRegister : opOf 0x00000015 = 5 ∧ (0x00000015 : Word) ≠ 0x00000005 := by decide

theorem witness_UnsupportedWidthCompletesWithInternal :
    ¬ IllegalWord 0x00050031 ∧ opOf 0x00050031 ≠ 5 ∧ wselOf 0x00050031 = 3 := by
  refine ⟨?_, by decide, by decide⟩
  unfold IllegalWord
  decide

/-- A word for each clause of `FirstError`, two where the clause has two outcomes, at the boundary of the length; the codes are
those of R150 and R155's examples, the data registers are zero. -/
theorem witness_CompletionReportsTheFirstError :
    (∀ c, (busyWith c).seq = .busy ∧ (busyWith c).agenda = .unit :: []) ∧
    ({ busyWith 3 with agenda := [.reset] } : State).agenda = .reset :: [] ∧
    leadsTo (step (busyWith 0x00800071)) (fun t => t.err == 6) = true ∧
    leadsTo (step (busyWith 0x00050031)) (fun t => t.err == 3) = true ∧
    leadsTo (step (busyWith 0x00800001)) (fun t => t.err == 0) = true ∧
    leadsTo (step (busyWith 0x007F0001)) (fun t => t.err == 1) = true ∧
    leadsTo (step (busyWith 0x00800002)) (fun t => t.err == 0) = true ∧
    leadsTo (step (busyWith 0x007F0002)) (fun t => t.err == 2) = true ∧
    leadsTo (step (busyWith 0x00000003)) (fun t => t.err == 5) = true ∧
    leadsTo (step (busyWith 0x00000004)) (fun t => t.err == 4) = true ∧
    leadsTo (step (busyWith 0x00000005)) (fun t => t.err == 0) = true := by
  refine ⟨fun _ => ⟨rfl, rfl⟩, rfl, ?_, ?_, ?_, ?_, ?_, ?_, ?_, ?_, ?_⟩ <;> decide +kernel

/-- The same words meet the hypotheses of the seven clauses. -/
theorem witness_FirstError :
    IllegalWord 0x00800071 ∧ (¬ IllegalWord 0x00050031 ∧ opOf 0x00050031 ≠ 5 ∧ wselOf 0x00050031 = 3) ∧
    (¬ IllegalWord 0x007F0001 ∧ opOf 0x007F0001 = 1 ∧ wselOf 0x007F0001 ≠ 3) ∧
    (¬ IllegalWord 0x007F0002 ∧ opOf 0x007F0002 = 2 ∧ wselOf 0x007F0002 ≠ 3) ∧
    (¬ IllegalWord 0x00000003 ∧ opOf 0x00000003 = 3 ∧ wselOf 0x00000003 ≠ 3) ∧
    (¬ IllegalWord 0x00000004 ∧ opOf 0x00000004 = 4 ∧ wselOf 0x00000004 ≠ 3) ∧
    (¬ IllegalWord 0x00000005 ∧ opOf 0x00000005 = 5) := by
  unfold IllegalWord
  refine ⟨?_, ?_, ?_, ?_, ?_, ?_, ?_⟩ <;> decide

theorem witness_ResetCancelsAndClearsInEveryState :
    ∃ s : State, s.seq = .busy ∧ s.agenda = .reset :: [.unit] :=
  ⟨{ busyWith 3 with agenda := _ }, rfl, rfl⟩

theorem witness_EveryStartedCommandCompletes :
    ∃ s : State, s.seq = .busy ∧ s.agenda = [rd32 0x004, wr32 0x000 5] ∧ Event.reset ∉ s.agenda :=
  ⟨{ busyWith 4 with agenda := [rd32 0x004, wr32 0x000 5] }, rfl, rfl, by decide⟩

theorem witness_RunIsOverExactlyWhenIdleWithNoAccessLeft :
    (∀ l ∈ [[], [Event.unit], [Event.reset], [Event.unit, Event.reset]], RunOver { afterZero with agenda := l }) ∧
    (∀ l ∈ [[wr32 0x000 3], [Event.unit, rd32 0x004]], ¬ RunOver { afterZero with agenda := l }) ∧
    ({ busyWith 3 with agenda := [] } : State).seq = .busy ∧ afterZero.agenda = [] ∧ afterZero.seq = .idle := by
  decide +kernel

theorem witness_RunIsOver_finalState (l : List Event) (h : l = [.unit, .unit] ∨ l = [.reset]) :
    finalState { afterZero with agenda := l } = some (registers afterZero) :=
  if_pos (by rcases h with rfl | rfl <;> decide +kernel)

theorem witness_StepKeepsTheControlInvariant :
    ∃ s : State, ControlInv s ∧ leadsTo (step s) (fun t => t.seq == .busy) = true :=
  ⟨{ afterZero with agenda := [wr32 0x000 3] },
    ⟨afterZero_control.1, afterZero_control.2, afterZero_control.3, afterZero_control.4⟩, by decide +kernel⟩

/-- A state with a result and its flag: `MPRIME` on a word file of ones. -/
def afterMprime : State := { withW (Vector.replicate 128 1) false with mp := 0xFFFFFFFF, mpv := true }

theorem witness_StepKeepsTheValidityPromise :
    ∃ s : State, DerivedInv s ∧ s.mpv = true ∧ leadsTo (step s) (fun t => !t.mpv) = true :=
  ⟨{ afterMprime with agenda := [wr32 0x200 1] }, ⟨by decide, fun h => nomatch h⟩, rfl, by decide +kernel⟩

theorem witness_BlockBecomesItsMontgomeryParameters :
    Wsel.w1024.width = some .w1024 ∧ valB (withB 128 id false).b Width.w1024.blockSize % 2 = 1 := by decide +kernel

theorem witness_IdleUnitStartsNothingByItself :
    afterZero.seq = .idle ∧ afterZero.agenda = [] ∧ ({ afterZero with agenda := [.unit, .reset] } : State).seq = .idle := by
  decide +kernel

theorem witness_StepTakesOneTurnAndOnlyTheHostGetsAnswers :
    leadsTo (step (busyWith 5)) (fun t => t.agenda == []) = true ∧ (busyWith 5).agenda = [.unit] ∧
    leadsTo (step { afterZero with agenda := [rd32 0x00C] }) (fun t => t.response == some .busError) = true := by
  decide +kernel

end Sys2Proof.Tests
end

section
/-! Proofs of the family spec/00_scope.md: widths, the window at `BASE`, and the turns of the three agents. -/

namespace Sys2Proof.Machine

/-! ### Turns (R11, R13, R60) -/

/-- R11, R31: the unit's turn always ends in a state, and takes no part in the order of the turns or in the host's answers. -/
theorem unitTurn_answers (s : State) :
    ∃ t, unitTurn s = .next t ∧ t.agenda = s.agenda ∧ t.response = s.response := by
  cases hs : s.seq with
  | idle => exact ⟨s, unitTurn_idle hs, rfl, rfl⟩
  | busy =>
    obtain ⟨u, e, hc, -, -, hagenda, hresponse, -⟩ := completion_completes s
    exact ⟨u.complete e, by rw [unitTurn_busy hs, hc], hagenda, hresponse⟩

/-- R11, R13, R60: a step ends in a state, takes the next turn, and sets the host's answer at the host's turn only. -/
theorem step_answers (s : State) :
    ∃ t, step s = .next t ∧ t.agenda = s.agenda.tail ∧
      (((∃ a rest, s.agenda = .host a :: rest) ∧ ∃ r, t.response = some r) ∨
       ((∀ a rest, s.agenda ≠ .host a :: rest) ∧ t.response = s.response)) := by
  obtain ⟨ha, hstep⟩ | ⟨a, rest, ha, hstep⟩ | ⟨rest, ha, hstep⟩ | ⟨rest, ha, hstep⟩ := step_cases s
  · obtain ⟨t, ht, hagenda, hresponse⟩ := unitTurn_answers s
    exact ⟨t, hstep.trans ht, by rw [hagenda, ha]; rfl, .inr ⟨by simp [ha], hresponse⟩⟩
  · exact ⟨_, hstep, by rw [hostAccess_agenda, ha]; rfl, .inl ⟨⟨a, rest, ha⟩, hostAccess_response a _⟩⟩
  · obtain ⟨t, ht, hagenda, hresponse⟩ := unitTurn_answers { s with agenda := rest }
    exact ⟨t, hstep.trans ht, by rw [hagenda, ha]; rfl, .inr ⟨by simp [ha], hresponse⟩⟩
  · exact ⟨_, hstep, by rw [ha]; rfl, .inr ⟨by simp [ha], rfl⟩⟩

/-- `step_answers` said of a given next state. -/
theorem step_next_answers {s t : State} (h : step s = .next t) :
    t.agenda = s.agenda.tail ∧
      (((∃ a rest, s.agenda = .host a :: rest) ∧ ∃ r, t.response = some r) ∨
       ((∀ a rest, s.agenda ≠ .host a :: rest) ∧ t.response = s.response)) := by
  obtain ⟨u, hu, hturn⟩ := step_answers s
  cases h.symm.trans hu
  exact hturn

/-- Settles O9: every command completes (`exec_completes`), and every agent's turn ends in a state (`step_answers`). -/
theorem everyStepAnswersANextState : Obligations.EveryStepAnswersANextState := by
  refine ⟨fun i s => ?_, fun s => ?_⟩
  · obtain ⟨u, e, he, -⟩ := exec_completes i s
    exact ⟨u.complete e, he, rfl, rfl⟩
  · obtain ⟨t, ht, -⟩ := step_answers s
    exact ⟨t, ht⟩

/-- Settles O48, by the turn that the step takes. -/
theorem stepTakesOneTurnAndOnlyTheHostGetsAnswers : Obligations.StepTakesOneTurnAndOnlyTheHostGetsAnswers := by
  refine ⟨fun s t h => (step_next_answers h).1, fun s t h hno => ?_, fun s t a rest ha h => ?_⟩
  · obtain ⟨-, ⟨⟨a, rest, ha⟩, -⟩ | ⟨-, hresponse⟩⟩ := step_next_answers h
    · exact absurd ha (hno a rest)
    · exact hresponse
  · obtain ⟨-, ⟨-, hr⟩ | ⟨hno, -⟩⟩ := step_next_answers h
    · exact hr
    · exact absurd ha (hno a rest)

/-- Settles O47: the model's law of an idle unit's turn, with the turn scheduled or for want of any other. -/
theorem idleUnitStartsNothingByItself : Obligations.IdleUnitStartsNothingByItself :=
  fun _ hidle hturn => step_of_idle hidle hturn

/-! ### The window at `BASE` (R7, R50) -/

/-- R7: offsets are counted from `BASE`, whatever its value. -/
theorem busOffset_base_add (off : Nat) : busOffset (Config.base + off) = (off : Int) := by
  unfold busOffset
  omega

/-- R52: a whole-register read while idle answers the register's content. -/
theorem hostRead_of_idle {s : State} (hs : s.seq = .idle) (r : Reg) {off : Int} (ho : off = (r.offset : Int)) :
    hostRead s off r.size = .okRead (readReg s r) := by
  have ht : target off r.size = some r := target_eq_some.mpr ⟨ho, rfl⟩
  simp [hostRead, ht, hs]

/-- Settles O16: an access names a register exactly at that register's offset and size (`target_eq_some`). -/
theorem eachRegisterStandsAtItsOwnOffset : Obligations.EachRegisterStandsAtItsOwnOffset := by
  refine ⟨busOffset_base_add, fun r r' off n h h' => ?_, fun r off off' n n' h h' => ?_, fun s hs => ?_⟩
  · exact Option.some.inj (h.symm.trans h')
  · obtain ⟨hoff, hn⟩ := target_eq_some.mp h
    obtain ⟨hoff', hn'⟩ := target_eq_some.mp h'
    exact ⟨hoff.trans hoff'.symm, hn.trans hn'.symm⟩
  · exact ⟨hostRead_of_idle hs .cmd rfl, hostRead_of_idle hs .status rfl, hostRead_of_idle hs .mp rfl,
      fun i => hostRead_of_idle hs (.w i) (by simp [Reg.offset]),
      fun i => hostRead_of_idle hs (.rv i) (by simp [Reg.offset]),
      fun j => hostRead_of_idle hs (.b j) (by simp [Reg.offset])⟩

/-! ### Widths (R6) -/

/-- Settles O7: the two sizes by their definitions and `Width.wordCount_mul`, the numbers of the table by evaluation. -/
theorem widthsFixTheBufferSizes : Obligations.WidthsFixTheBufferSizes := by
  refine ⟨fun k => ⟨rfl, rfl, k.wordCount_mul⟩, ?_⟩
  decide

end Sys2Proof.Machine
end

section
/-! Proofs of the family spec/10_state.md: the sequencer, `STATUS`, the validity flags, and what every step keeps. -/

namespace Sys2Proof.Machine

/-! ### What a command, and what a step, can do -/

/-- R31, R156: the completion of a command: it failed and changed nothing but `ERR`, `DONE` and `SEQ`, or it is one of the
five with all its updates. -/
inductive Performs (s : State) : Instr → State → Prop
  | failed (i : Instr) (e : ErrorCode) (he : e ≠ .ok) : Performs s i (s.complete e)
  | b2w (ws : Wsel) (len : Nat) (k : Width) :
      Performs s (.b2w ws len) (({ s with w := wordsOfBlock k s.b s.w } : State).clearValid.complete .ok)
  | w2b (ws : Wsel) (len : Nat) (k : Width) :
      Performs s (.w2b ws len) (({ s with b := blockOfWords k s.w s.b } : State).complete .ok)
  | mprime (ws : Wsel) (hodd : s.w[0].getLsbD 0 = true) :
      Performs s (.mprime ws) (({ s with mp := negInverse s.w[0], mpv := true } : State).complete .ok)
  | rcalc (ws : Wsel) (k : Width) (hn : val s.w k.wordCount ≠ 0) :
      Performs s (.rcalc ws)
        (({ s with
            rv := wordsOfNat k.wordCount (rValue k.wordCount (val s.w k.wordCount)) s.rv,
            rvv := true } : State).complete .ok)
  | zero : Performs s .zero (s.zeroData.complete .ok)

/-- The commands do nothing else, by the inversion of each of them. -/
theorem exec_performs {i : Instr} {s t : State} (h : exec i s = .next t) : Performs s i t := by
  cases i with
  | b2w ws len =>
    obtain ⟨-, he⟩ | ⟨k, -, ⟨-, he⟩ | ⟨-, he⟩⟩ := execB2w_cases ws len s <;> cases h.symm.trans he
    · exact .failed _ _ (by decide)
    · exact .failed _ _ (by decide)
    · exact .b2w ws len k
  | w2b ws len =>
    obtain ⟨-, he⟩ | ⟨k, -, ⟨-, he⟩ | ⟨-, he⟩⟩ := execW2b_cases ws len s <;> cases h.symm.trans he
    · exact .failed _ _ (by decide)
    · exact .failed _ _ (by decide)
    · exact .w2b ws len k
  | mprime ws =>
    obtain ⟨-, he⟩ | ⟨k, -, ⟨-, he⟩ | ⟨hodd, he⟩⟩ := execMprime_cases ws s <;> cases h.symm.trans he
    · exact .failed _ _ (by decide)
    · exact .failed _ _ (by decide)
    · exact .mprime ws hodd
  | rcalc ws =>
    obtain ⟨-, he⟩ | ⟨k, -, ⟨-, he⟩ | ⟨hn, he⟩⟩ := execRcalc_cases ws s <;> cases h.symm.trans he
    · exact .failed _ _ (by decide)
    · exact .failed _ _ (by decide)
    · exact .rcalc ws k hn
  | zero =>
    cases h
    exact .zero

/-- R31, R142: the completion step performs the decoded command, or fails because the latched word is none. -/
theorem completion_performs {s t : State} (h : completion s = .next t) :
    (∃ i, decode s.cur = .ok i ∧ Performs s i t) ∨ t = s.complete .illegalCommand := by
  obtain ⟨i, hd, hc⟩ | ⟨-, -, hc⟩ := completion_cases s
  · exact .inl ⟨i, hd, exec_performs (hc.symm.trans h)⟩
  · cases h.symm.trans hc
    exact .inr rfl

/-- R31, R84: the completion step of a word that spells a command is the command's meaning. -/
theorem completion_of_decode {s : State} {i : Instr} (h : decode s.cur = .ok i) : completion s = exec i s := by
  simp only [completion, h]

/-- R31, R150: whatever the latched word, its completion keeps it in `CUR` and reports a code it can report. -/
theorem completion_reports {s t : State} (h : completion s = .next t) :
    ∃ (u : State) (e : ErrorCode), t = u.complete e ∧ u.cur = s.cur ∧ e ∈ Safety.reportable s.cur := by
  obtain ⟨u, e, hu, -, hcur, -, -, he⟩ := completion_completes s
  cases h.symm.trans hu
  exact ⟨u, e, rfl, hcur, he⟩

/-- R60: the unit has the next turn: it is scheduled, or no turn is. -/
abbrev UnitHasTurn (s : State) : Prop := s.agenda = [] ∨ ∃ rest, s.agenda = .unit :: rest

/-- R11, R13, R60: what one step of one agent can do to the registers. `idles` is every turn that leaves them all alone: a
read, a refused access, or a unit's turn while it is idle. -/
inductive Takes (s t : State) : Prop
  | resets (rest : List Event) (hturn : s.agenda = .reset :: rest) (ht : t = resetEvent { s with agenda := rest })
  | completes (hturn : UnitHasTurn s) (hbusy : s.seq = .busy)
      (hc : completion { s with agenda := s.agenda.tail } = .next t)
  | idles (rest : List Event) (r : Option Response) (ht : t = { s with agenda := rest, response := r })
  | starts (v : Word) (rest : List Event) (hidle : s.seq = .idle)
      (hturn : s.agenda = .host (.write 0x000 (.word v)) :: rest)
      (ht : t = { s.startCommand v with agenda := rest, response := some .okWrite })
  | writesW (i : Fin 128) (v : Word) (rest : List Event) (hidle : s.seq = .idle)
      (hturn : s.agenda = .host (.write (0x200 + 4 * (i.val : Int)) (.word v)) :: rest)
      (ht : t = { s.writeW i v with agenda := rest, response := some .okWrite })
  | writesB (j : Fin 512) (v : Byte) (rest : List Event) (hidle : s.seq = .idle)
      (hturn : s.agenda = .host (.write (0x600 + (j.val : Int)) (.byte v)) :: rest)
      (ht : t = { s.writeB j v with agenda := rest, response := some .okWrite })

/-- The unit's turn completes a command in flight, and passes while there is none. -/
theorem takes_of_unitHasTurn {s t : State} (hturn : UnitHasTurn s) (h : step s = .next t) : Takes s t := by
  cases hs : s.seq with
  | idle =>
    cases h.symm.trans (step_of_idle hs hturn)
    exact .idles _ _ rfl
  | busy => exact .completes hturn hs ((step_of_busy hs hturn).symm.trans h)

/-- The host's turn is one of the three writes, or leaves the registers alone. -/
theorem takes_of_host {s t : State} {a : Access} {rest : List Event} (hturn : s.agenda = .host a :: rest)
    (h : step s = .next t) : Takes s t := by
  cases h.symm.trans (step_of_host hturn)
  obtain ⟨r, ha⟩ | ⟨hs, v, rfl, ha⟩ | ⟨hs, i, v, rfl, ha⟩ | ⟨hs, j, v, rfl, ha⟩ :=
    hostAccess_cases a { s with agenda := rest }
  · exact .idles rest (some r) ha
  · exact .starts v rest hs hturn ha
  · exact .writesW i v rest hs hturn ha
  · exact .writesB j v rest hs hturn ha

/-- Every step is one of these. -/
theorem step_takes {s t : State} (h : step s = .next t) : Takes s t := by
  obtain ⟨ha, -⟩ | ⟨a, rest, ha, -⟩ | ⟨rest, ha, -⟩ | ⟨rest, ha, hstep⟩ := step_cases s
  · exact takes_of_unitHasTurn (.inl ha) h
  · exact takes_of_host ha h
  · exact takes_of_unitHasTurn (.inr ⟨rest, ha⟩) h
  · cases h.symm.trans hstep
    exact .resets rest ha rfl

/-! ### The control invariant (R24 to R27, R30, R31, R107, R150) -/

/-- R34: reset, in any state, leaves a unit on which no command was started. -/
theorem controlInv_resetEvent (s : State) : Safety.ControlInv (resetEvent s) where
  busy_not_done _ := rfl
  err_zero_until_done _ := rfl
  err_fits_command h := nomatch h
  untouched_before_first _ _ := ⟨rfl, rfl, rfl, rfl, rfl⟩

/-- R30: a started command has no result yet. -/
theorem controlInv_startCommand (v : Word) (s : State) : Safety.ControlInv (s.startCommand v) where
  busy_not_done _ := rfl
  err_zero_until_done _ := rfl
  err_fits_command h := nomatch h
  untouched_before_first h := nomatch h

/-- R31, R150: a completed command has a result its word can report. -/
theorem controlInv_complete {e : ErrorCode} {s : State} (he : e ∈ Safety.reportable s.cur) :
    Safety.ControlInv (s.complete e) where
  busy_not_done h := nomatch h
  err_zero_until_done h := nomatch h
  err_fits_command _ := ⟨e, he, rfl⟩
  untouched_before_first _ h := nomatch h

/-- R53: a host write to `W[i]` keeps the control state, and leaves the flags 0 where they were 0. -/
theorem controlInv_writeW {s : State} (h : Safety.ControlInv s) (i : Fin 128) (v : Word) :
    Safety.ControlInv (s.writeW i v) where
  busy_not_done := h.busy_not_done
  err_zero_until_done := h.err_zero_until_done
  err_fits_command := h.err_fits_command
  untouched_before_first hs hd :=
    have ⟨hcur, hmp, hrv, _, _⟩ := h.untouched_before_first hs hd
    ⟨hcur, hmp, hrv, rfl, rfl⟩

/-- The control invariant says nothing of `B`, the agenda or the host's answer. -/
theorem controlInv_frame {s : State} (h : Safety.ControlInv s) (b : Vector Byte 512) (l : List Event)
    (r : Option Response) : Safety.ControlInv { s with b := b, agenda := l, response := r } :=
  ⟨h.busy_not_done, h.err_zero_until_done, h.err_fits_command, h.untouched_before_first⟩

/-- Settles O42, by what a step can do: each of the six keeps the invariant. -/
theorem stepKeepsTheControlInvariant : Obligations.StepKeepsTheControlInvariant := by
  intro s t hs h
  cases step_takes h with
  | resets rest _ ht => exact ht ▸ controlInv_resetEvent _
  | completes _ _ hc =>
    obtain ⟨u, e, rfl, hcur, he⟩ := completion_reports hc
    exact controlInv_complete (hcur ▸ he)
  | idles rest r ht => exact ht ▸ controlInv_frame hs s.b rest r
  | starts v rest _ _ ht => exact ht ▸ controlInv_frame (controlInv_startCommand v s) s.b rest _
  | writesW i v rest _ _ ht => exact ht ▸ controlInv_frame (controlInv_writeW hs i v) s.b rest _
  | writesB j v rest _ _ ht => exact ht ▸ controlInv_frame hs (s.b.set j v) rest _

/-- Settles O43: reset leaves the reset state. -/
theorem resetMeetsTheControlInvariant : Obligations.ResetMeetsTheControlInvariant :=
  controlInv_resetEvent State.reset

/-! ### The promise of the validity flags (R29, R101, R104) -/

/-- With both flags 0 nothing is promised. -/
theorem derivedInv_of_flags_clear {s : State} (hmpv : s.mpv = false) (hrvv : s.rvv = false) : Safety.DerivedInv s :=
  ⟨fun h => by simp [hmpv] at h, fun h => by simp [hrvv] at h⟩

/-- The promise speaks of `W`, `RV`, `MP` and the two flags only. -/
theorem derivedInv_congr {s t : State} (h : Safety.DerivedInv s) (hw : t.w = s.w) (hrv : t.rv = s.rv) (hmp : t.mp = s.mp)
    (hmpv : t.mpv = s.mpv) (hrvv : t.rvv = s.rvv) : Safety.DerivedInv t :=
  ⟨by simpa only [hw, hmp, hmpv] using h.mp_of_current_w, by simpa only [hw, hrv, hrvv] using h.rv_of_current_w⟩

/-- R29: a command that sets a flag computed its result from the current `W`; a command that changes `W` clears both. -/
theorem Performs.derivedInv {i : Instr} {s t : State} (h : Performs s i t) (hs : Safety.DerivedInv s) :
    Safety.DerivedInv t := by
  cases h with
  | failed e => exact derivedInv_congr hs rfl rfl rfl rfl rfl
  | b2w ws len k => exact derivedInv_of_flags_clear rfl rfl
  | w2b ws len k => exact derivedInv_congr hs rfl rfl rfl rfl rfl
  | mprime ws hodd =>
    refine ⟨fun _ => ?_, ?_⟩
    · simpa using negInverse_toNat s.w[0] hodd
    · simpa using hs.rv_of_current_w
  | rcalc ws k hn =>
    refine ⟨?_, fun _ => ⟨k, ?_, ?_⟩⟩
    · simpa using hs.mp_of_current_w
    · simpa using hn
    · simpa using val_of_rcalc s.w s.rv k hn
  | zero => exact derivedInv_of_flags_clear rfl rfl

/-- Settles O44, by what a step can do: only a completion sets a flag, and whatever changes `W` clears both. -/
theorem stepKeepsTheValidityPromise : Obligations.StepKeepsTheValidityPromise := by
  intro s t hs h
  cases step_takes h with
  | resets rest _ ht => exact ht ▸ derivedInv_of_flags_clear rfl rfl
  | completes _ _ hc =>
    have hs' : Safety.DerivedInv { s with agenda := s.agenda.tail } := derivedInv_congr hs rfl rfl rfl rfl rfl
    obtain ⟨i, -, hi⟩ | rfl := completion_performs hc
    · exact hi.derivedInv hs'
    · exact derivedInv_congr hs rfl rfl rfl rfl rfl
  | idles rest r ht => exact ht ▸ derivedInv_congr hs rfl rfl rfl rfl rfl
  | starts v rest _ _ ht => exact ht ▸ derivedInv_congr hs rfl rfl rfl rfl rfl
  | writesW i v rest _ _ ht => exact ht ▸ derivedInv_of_flags_clear rfl rfl
  | writesB j v rest _ _ ht => exact ht ▸ derivedInv_congr hs rfl rfl rfl rfl rfl

/-- Settles O45: both flags are 0 after reset. -/
theorem resetMeetsTheValidityPromise : Obligations.ResetMeetsTheValidityPromise :=
  derivedInv_of_flags_clear rfl rfl

/-! ### The sequencer (R27, R30, R31) -/

/-- R27: the sequencer leaves `IDLE` at a command start only. -/
theorem Takes.starts_of_busy {s t : State} (h : Takes s t) (hs : s.seq = .idle) (ht : t.seq = .busy) :
    ∃ v rest, s.agenda = .host (.write 0x000 (.word v)) :: rest ∧ t.cur = v := by
  cases h with
  | starts v rest _ hturn heq => exact ⟨v, rest, hturn, by rw [heq]; rfl⟩
  | completes _ hbusy _ => simp [hs] at hbusy
  | resets _ _ heq | idles _ _ heq | writesW _ _ _ _ _ heq | writesB _ _ _ _ _ heq => simp [heq, hs] at ht

/-- R27, R150: the sequencer leaves `BUSY` at reset or at a completion only. -/
theorem Takes.resets_or_completes_of_idle {s t : State} (h : Takes s t) (hs : s.seq = .busy) (ht : t.seq = .idle) :
    (∃ rest, s.agenda = .reset :: rest) ∨
      (UnitHasTurn s ∧ t.done = true ∧ ∃ e ∈ Safety.reportable s.cur, t.err = e.code) := by
  cases h with
  | resets rest hturn _ => exact .inl ⟨rest, hturn⟩
  | completes hturn _ hc =>
    obtain ⟨u, e, rfl, -, he⟩ := completion_reports hc
    exact .inr ⟨hturn, rfl, e, he, rfl⟩
  | idles _ _ heq => simp [heq, hs] at ht
  | starts _ _ hidle | writesW _ _ _ hidle | writesB _ _ _ hidle => simp [hs] at hidle

/-- Settles O12, by what a step can do. -/
theorem sequencerMovesOnlyAtStartCompletionReset : Obligations.SequencerMovesOnlyAtStartCompletionReset :=
  fun _ _ h => ⟨(step_takes h).starts_of_busy, (step_takes h).resets_or_completes_of_idle⟩

/-- R31, R84: at its turn with a command in flight, the unit performs the command that `CUR` spells. -/
theorem step_of_busy_of_decode {s : State} {i : Instr} (hs : s.seq = .busy) (hturn : UnitHasTurn s)
    (hd : decode s.cur = .ok i) : step s = exec i { s with agenda := s.agenda.tail } :=
  (step_of_busy hs hturn).trans (completion_of_decode hd)

/-- R87: a table word of 32 bits is the command word itself. -/
theorem tableWord_32 (w : Nat) : tableWord 32 w = BitVec.ofNat 32 w :=
  BitVec.eq_of_toNat_eq (by simp [tableWord])

/-- What the host's decoder reads is what the unit's decoder reads. -/
theorem decode_of_decodeTableWord {n w : Nat} {i : Instr} (h : decodeTableWord n w = some i) :
    decode (tableWord n w) = .ok i := by
  unfold decodeTableWord at h
  split at h
  · next hd => rw [hd, Option.some.inj h]
  · cases h

/-- Settles O8: `step_of_busy_of_decode`, with the turn scheduled, for want of any other, or put first by `withFetchWord`. -/
theorem stepRunsTheLatchedCommand : Obligations.StepRunsTheLatchedCommand := by
  refine ⟨fun s i rest hs ha hd => ?_, fun s i hs ha hd => ?_, fun s w i hd => ?_⟩
  · rw [step_of_busy_of_decode hs (.inr ⟨rest, ha⟩) hd, ha, List.tail_cons]
  · rw [step_of_busy_of_decode hs (.inl ha) hd, ha, List.tail_nil, ← ha]
  · rw [← tableWord_32]
    exact step_of_busy_of_decode (s := s.latched (tableWord 32 w)) rfl (.inr ⟨_, rfl⟩) (decode_of_decodeTableWord hd)

/-- R53: a write of a register's own size at its own offset is a write to that register, once the unit is idle. -/
theorem hostWrite_of_idle {s : State} (hs : s.seq = .idle) (r : Reg) {off : Int} {d : BusData}
    (ho : off = (r.offset : Int)) (hd : d.size = r.size) : hostWrite s off d = writeReg r d s := by
  have ht : target off d.size = some r := target_eq_some.mpr ⟨ho, hd⟩
  simp [hostWrite, ht, hs]

/-- R58: while a command is in flight no write is accepted. -/
theorem hostWrite_of_busy {s : State} (hs : s.seq = .busy) (off : Int) (d : BusData) : hostWrite s off d = none := by
  unfold hostWrite
  split
  · rfl
  · simp [hs]

/-- R54: a refused write changes nothing but the host's answer. -/
theorem hostAccess_write_refused {s : State} {off : Int} {d : BusData} (h : hostWrite s off d = none) :
    hostAccess (.write off d) s = { s with response := some .busError } := by
  simp only [hostAccess, h]

/-- R53: an accepted write takes effect, and the host is told so. -/
theorem hostAccess_write_accepted {s t : State} {off : Int} {d : BusData} (h : hostWrite s off d = some t) :
    hostAccess (.write off d) s = { t with response := some .okWrite } := by
  simp only [hostAccess, h]

/-- Settles O10: the write names `CMD`, which takes every word, and no write is accepted while busy. -/
theorem commandStartLatchesEveryWord : Obligations.CommandStartLatchesEveryWord := by
  intro s v rest hturn
  rw [step_of_host hturn]
  refine ⟨fun hs => ?_, fun hs => ?_⟩
  · have hw := hostWrite_of_idle (s := { s with agenda := rest }) hs .cmd (off := 0x000) (d := .word v) rfl rfl
    rw [hostAccess_write_accepted hw]
    rfl
  · rw [hostAccess_write_refused (hostWrite_of_busy (s := { s with agenda := rest }) hs _ _)]

/-! ### The validity flags (R29) -/

/-- R29: only a successful command moves a flag: `MPRIME` sets `MPV`, `RCALC` sets `RVV`, `B2W` and `ZERO` clear both. -/
theorem Performs.flags {i : Instr} {s t : State} (h : Performs s i t) :
    (t.mpv = s.mpv ∧ t.rvv = s.rvv) ∨
    (t.err = 0 ∧
      ((∃ ws, i = .mprime ws ∧ t.mpv = true ∧ t.rvv = s.rvv) ∨ (∃ ws, i = .rcalc ws ∧ t.rvv = true ∧ t.mpv = s.mpv) ∨
       (∃ ws len, i = .b2w ws len) ∨ i = .zero)) := by
  cases h with
  | failed e he => exact .inl ⟨rfl, rfl⟩
  | w2b ws len k => exact .inl ⟨rfl, rfl⟩
  | mprime ws => exact .inr ⟨rfl, .inl ⟨ws, rfl, by simp⟩⟩
  | rcalc ws k => exact .inr ⟨rfl, .inr (.inl ⟨ws, rfl, by simp⟩)⟩
  | b2w ws len k => exact .inr ⟨rfl, .inr (.inr (.inl ⟨ws, len, rfl⟩))⟩
  | zero => exact .inr ⟨rfl, .inr (.inr (.inr rfl))⟩

/-- R150: a command that fails leaves a code. -/
theorem complete_err_ne_zero {e : ErrorCode} (he : e ≠ .ok) (s : State) : (s.complete e).err ≠ 0 :=
  fun h => he (e.code_eq_zero.mp h)

/-- R29: a step that moves a flag is a reset, an accepted write to a word, or the success of one of the four commands. -/
theorem Takes.flags_moved {s t : State} (h : Takes s t) (hne : t.mpv ≠ s.mpv ∨ t.rvv ≠ s.rvv) :
    (∃ rest, s.agenda = .reset :: rest) ∨
    (s.seq = .idle ∧ ∃ (i : Fin 128) (v : Word) (rest : List Event),
      s.agenda = .host (.write (0x200 + 4 * (i.val : Int)) (.word v)) :: rest ∧ t.response = some .okWrite) ∨
    (s.seq = .busy ∧ UnitHasTurn s ∧ t.err = 0 ∧
      ((∃ ws, decode s.cur = .ok (.mprime ws) ∧ t.rvv = s.rvv) ∨ (∃ ws, decode s.cur = .ok (.rcalc ws) ∧ t.mpv = s.mpv) ∨
       (∃ ws len, decode s.cur = .ok (.b2w ws len)) ∨ decode s.cur = .ok .zero)) := by
  have hmoved : ¬ (t.mpv = s.mpv ∧ t.rvv = s.rvv) := not_and_or.mpr hne
  cases h with
  | resets rest hturn _ => exact .inl ⟨rest, hturn⟩
  | completes hturn hbusy hc =>
    obtain ⟨i, hd, hi⟩ | rfl := completion_performs hc
    · obtain hsame | ⟨herr, hcmd⟩ := hi.flags
      · exact absurd hsame hmoved
      · refine .inr (.inr ⟨hbusy, hturn, herr, ?_⟩)
        obtain ⟨ws, rfl, -, hrvv⟩ | ⟨ws, rfl, -, hmpv⟩ | ⟨ws, len, rfl⟩ | rfl := hcmd
        · exact .inl ⟨ws, hd, hrvv⟩
        · exact .inr (.inl ⟨ws, hd, hmpv⟩)
        · exact .inr (.inr (.inl ⟨ws, len, hd⟩))
        · exact .inr (.inr (.inr hd))
    · exact absurd ⟨rfl, rfl⟩ hmoved
  | writesW i v rest hidle hturn ht => exact .inr (.inl ⟨hidle, i, v, rest, hturn, by rw [ht]⟩)
  | idles _ _ ht | starts _ _ _ _ ht | writesB _ _ _ _ _ ht => exact absurd (by rw [ht]; exact ⟨rfl, rfl⟩) hmoved

/-- R29, R53: an accepted host write to `W[i]` clears both flags. -/
theorem flags_of_write_w {s t : State} {i : Fin 128} {v : Word} {rest : List Event}
    (hturn : s.agenda = .host (.write (0x200 + 4 * (i.val : Int)) (.word v)) :: rest) (h : step s = .next t)
    (hok : t.response = some .okWrite) : t.mpv = false ∧ t.rvv = false := by
  cases hs : s.seq with
  | busy =>
    cases h.symm.trans (step_of_host hturn)
    rw [hostAccess_write_refused (hostWrite_of_busy (s := { s with agenda := rest }) hs _ _)] at hok
    cases hok
  | idle =>
    cases h.symm.trans (step_of_host hturn)
    have hw := hostWrite_of_idle (s := { s with agenda := rest }) hs (.w i) (d := .word v)
      (off := 0x200 + 4 * (i.val : Int)) (by simp [Reg.offset]) rfl
    rw [hostAccess_write_accepted hw]
    exact ⟨rfl, rfl⟩

/-- Settles O13: the commands by `exec_performs`, the steps by `Takes.flags_moved`. -/
theorem validityFlagsChangeOnlyAsListed : Obligations.ValidityFlagsChangeOnlyAsListed := by
  refine ⟨fun ws s t h herr => ?_, fun ws s t h herr => ?_, fun ws len s t h herr => ?_, fun s t h => ?_,
    fun s t i v rest => flags_of_write_w, fun s t h => (step_takes h).flags_moved⟩
  · cases exec_performs h with
    | failed _ e he => exact absurd herr (complete_err_ne_zero he s)
    | mprime => simp
  · cases exec_performs h with
    | failed _ e he => exact absurd herr (complete_err_ne_zero he s)
    | rcalc => simp
  · cases exec_performs h with
    | failed _ e he => exact absurd herr (complete_err_ne_zero he s)
    | b2w => exact ⟨rfl, rfl⟩
  · cases h
    exact ⟨rfl, rfl⟩

/-! ### `STATUS` (R25) -/

theorem SeqState.busyBit_toNat (q : SeqState) : q.busyBit.toNat = if q = .busy then 1 else 0 := by cases q <;> rfl

theorem SeqState.busyBit_eq_true {q : SeqState} : q.busyBit = true ↔ q = .busy := by cases q <;> decide

/-- R25: `BUSY` is bit 0. -/
theorem State.status_getLsbD_zero (s : State) : s.status.getLsbD 0 = s.seq.busyBit := by
  simp only [State.status, BitVec.getLsbD_append]
  simp

/-- R25: `DONE` is bit 1. -/
theorem State.status_getLsbD_one (s : State) : s.status.getLsbD 1 = s.done := by
  simp only [State.status, BitVec.getLsbD_append]
  simp

/-- A flag at a place contributes the place's weight or nothing. -/
theorem toNat_mul_eq_ite (b : Bool) (n : Nat) : b.toNat * n = if b then n else 0 := by cases b <;> simp

/-- R25: `STATUS` as the sum of its fields, each at its place. -/
theorem State.status_toNat (s : State) :
    s.status.toNat = s.seq.busyBit.toNat + s.done.toNat * 2 + s.err.toNat * 2 ^ 4 + s.mpv.toNat * 2 ^ 8
      + s.rvv.toNat * 2 ^ 9 := by
  simp only [State.status, append_toNat, BitVec.toNat_ofBool]
  have h0 : (0 : BitVec 22).toNat = 0 := rfl
  have h1 : (0 : BitVec 2).toNat = 0 := rfl
  omega

/-- R52, R58: a read at a register's own offset and size answers its content, where the sequencer state lets it. -/
theorem hostRead_of_readable {s : State} (r : Reg) (hs : s.seq = .idle ∨ r.readableBusy = true) {off : Int}
    (ho : off = (r.offset : Int)) : hostRead s off r.size = .okRead (readReg s r) := by
  have ht : target off r.size = some r := target_eq_some.mpr ⟨ho, rfl⟩
  simp only [hostRead, ht, if_pos hs]

/-- R25, R58: `STATUS` can be read in both sequencer states. -/
theorem hostRead_status (s : State) : hostRead s 0x004 .word = .okRead (.word s.status) :=
  hostRead_of_readable .status (.inr rfl) rfl

/-- R25: in the states of the control invariant `BUSY` and `DONE` are never both 1. -/
theorem not_busy_and_done {s : State} (h : Safety.ControlInv s) :
    ¬ (s.status.getLsbD 0 = true ∧ s.status.getLsbD 1 = true) := by
  rw [State.status_getLsbD_zero, State.status_getLsbD_one, SeqState.busyBit_eq_true]
  rintro ⟨hbusy, hdone⟩
  simp [h.busy_not_done hbusy] at hdone

/-- R34: `STATUS` is 0 after reset. -/
theorem status_reset : State.reset.status = 0 := by decide

/-- Settles O15: the layout by `State.status_toNat`, the read by `hostRead_status`. -/
theorem statusReadsTheFlagsInTheirPlaces : Obligations.StatusReadsTheFlagsInTheirPlaces := by
  refine ⟨fun s => ?_, fun s rest hturn => ?_, fun s h => ⟨not_busy_and_done h, fun hbusy => ?_⟩, status_reset⟩
  · simp only [State.status_toNat, SeqState.busyBit_toNat, toNat_mul_eq_ite]
  · rw [step_of_host hturn, hostAccess, hostRead_status]
    rfl
  · exact h.err_zero_until_done (h.busy_not_done hbusy)

/-! ### After reset (R34) -/

/-- Settles O38: every register file is filled with 0, and an idle unit answers both reads. -/
theorem resetLeavesEveryRegisterZero : Obligations.ResetLeavesEveryRegisterZero := by
  refine ⟨fun i h => Vector.getElem_replicate h, fun i h => Vector.getElem_replicate h, rfl,
    fun j h => Vector.getElem_replicate h, rfl, rfl, rfl, rfl, rfl, rfl, ?_, hostRead_of_idle rfl .cmd rfl⟩
  rw [hostRead_status, status_reset]

end Sys2Proof.Machine
end

section
/-! Proofs of the family spec/20_memory.md: host accesses, when they are answered and what they leave unchanged. -/

namespace Sys2Proof.Machine

/-! ### Registers by offset and size (R50, R55, R56) -/

/-- R50: no two registers share an offset. -/
theorem Reg.offset_injective : Function.Injective Reg.offset := fun q r h =>
  Option.some.inj (by rw [← regAt_at_offset q, ← regAt_at_offset r, h])

/-- R50, R55: where word registers and byte registers stand. -/
theorem Reg.size_and_offset_range (q : Reg) :
    (q.size = .word ∧ q.offset % 4 = 0 ∧ (q.offset < 0x00C ∨ 0x200 ≤ q.offset ∧ q.offset < 0x600)) ∨
    (q.size = .byte ∧ 0x600 ≤ q.offset ∧ q.offset < 0x800) := by
  cases q with
  | cmd | status | mp => exact .inl ⟨rfl, by decide, by decide⟩
  | w i | rv i => exact .inl ⟨rfl, by simp only [Reg.offset]; omega, by simp only [Reg.offset]; omega⟩
  | b j => exact .inr ⟨rfl, by simp only [Reg.offset]; omega, by simp only [Reg.offset]; omega⟩

/-- R55, R56: an access that is no register's own offset and size names none. -/
theorem target_eq_none {off : Int} {n : Size} :
    target off n = none ↔ ∀ q : Reg, ¬ (off = (q.offset : Int) ∧ n = q.size) := by
  simp only [Option.eq_none_iff_forall_ne_some, ne_eq, target_eq_some]

/-- R58: the two registers that answer while a command is in flight. -/
theorem Reg.readableBusy_iff {q : Reg} : q.readableBusy = true ↔ q = .cmd ∨ q = .status := by
  cases q <;> simp [Reg.readableBusy]

/-! ### Host reads (R52, R58, R59) -/

/-- R52, R58: when a read is `OK`, and with what value. -/
theorem hostRead_eq_okRead {s : State} {off : Int} {n : Size} {v : BusData} :
    hostRead s off n = .okRead v ↔
      ∃ q : Reg, off = (q.offset : Int) ∧ n = q.size ∧ (s.seq = .idle ∨ q = .cmd ∨ q = .status) ∧ v = readReg s q := by
  simp only [← Reg.readableBusy_iff]
  constructor
  · intro h
    obtain hr | ⟨q, ho, hn, hs, hr⟩ := hostRead_cases s off n
    · cases h.symm.trans hr
    · exact ⟨q, ho, hn, hs, Response.okRead.inj (h.symm.trans hr)⟩
  · rintro ⟨q, ho, rfl, hs, rfl⟩
    exact hostRead_of_readable q hs ho

/-- R58: `CMD` can be read in both sequencer states. -/
theorem hostRead_cmd (s : State) : hostRead s 0x000 .word = .okRead (.word s.cur) :=
  hostRead_of_readable .cmd (.inr rfl) rfl

/-- R52: a read is never answered as a write. -/
theorem hostRead_ne_okWrite (s : State) (off : Int) (n : Size) : hostRead s off n ≠ .okWrite := by
  obtain h | ⟨q, -, -, -, h⟩ := hostRead_cases s off n <;> simp [h]

/-- R58: while a command is in flight every read but those of `CMD` and `STATUS` is refused. -/
theorem hostRead_of_busy {s : State} (hs : s.seq = .busy) {off : Int} {n : Size}
    (hcmd : Access.read off n ≠ .read 0x000 .word) (hstatus : Access.read off n ≠ .read 0x004 .word) :
    hostRead s off n = .busError := by
  obtain h | ⟨q, rfl, rfl, hidle | hq, -⟩ := hostRead_cases s off n
  · exact h
  · simp [hs] at hidle
  · obtain rfl | rfl := Reg.readableBusy_iff.mp hq
    · exact absurd rfl hcmd
    · exact absurd rfl hstatus

/-- R52, R59: the host's turn with a read changes nothing but the turn and the host's answer. -/
theorem step_of_host_read {s : State} {off : Int} {n : Size} {rest : List Event}
    (hturn : s.agenda = .host (.read off n) :: rest) :
    step s = .next { s with agenda := rest, response := some (hostRead s off n) } :=
  step_of_host hturn

/-! ### Host writes (R53, R54, R57) -/

/-- R53: a write that is no writable register's own offset and size is refused. -/
theorem hostWrite_of_no_writable {off : Int} {d : BusData}
    (h : ∀ q : Reg, q.writable = true → ¬ (off = (q.offset : Int) ∧ d.size = q.size)) (s : State) :
    hostWrite s off d = none := by
  cases hw : hostWrite s off d with
  | none => rfl
  | some t =>
    obtain ⟨-, ⟨v, ho, rfl, -⟩ | ⟨i, v, ho, rfl, -⟩ | ⟨j, v, ho, rfl, -⟩⟩ := hostWrite_some hw
    · exact absurd ⟨ho, rfl⟩ (h .cmd rfl)
    · exact absurd ⟨by simpa [Reg.offset] using ho, rfl⟩ (h (.w i) rfl)
    · exact absurd ⟨by simpa [Reg.offset] using ho, rfl⟩ (h (.b j) rfl)

/-- R57: a write of any size at the offset of a register without write rights is refused. -/
theorem hostWrite_of_not_writable {r : Reg} (hr : r.writable = false) {off : Int} (ho : off = (r.offset : Int))
    (d : BusData) (s : State) : hostWrite s off d = none := by
  refine hostWrite_of_no_writable (fun q hq hqo => ?_) s
  have hqr : q = r := Reg.offset_injective (Int.ofNat.inj (hqo.1.symm.trans ho))
  simp [hqr, hr] at hq

/-- R54: the host's turn with a write that is refused. -/
theorem step_of_host_write_refused {s : State} {off : Int} {d : BusData} {rest : List Event}
    (hturn : s.agenda = .host (.write off d) :: rest) (h : hostWrite { s with agenda := rest } off d = none) :
    step s = .next { s with agenda := rest, response := some .busError } :=
  (step_of_host hturn).trans (congrArg _ (hostAccess_write_refused h))

/-- R53: the host's turn with a write, of the register's own size at its own offset, while the unit is idle. -/
theorem step_of_host_write_accepted {s t : State} {off : Int} {d : BusData} {rest : List Event}
    (hturn : s.agenda = .host (.write off d) :: rest) (hs : s.seq = .idle) (r : Reg) (ho : off = (r.offset : Int))
    (hd : d.size = r.size) (ht : writeReg r d { s with agenda := rest } = some t) :
    step s = .next { t with response := some .okWrite } :=
  (step_of_host hturn).trans (congrArg _ (hostAccess_write_accepted
    ((hostWrite_of_idle (s := { s with agenda := rest }) hs r ho hd).trans ht)))

/-- R54: each of the three accepted writes is answered `OK`, so a refused access changed the host's answer only. -/
theorem hostAccess_of_refused {a : Access} {s : State} (h : (hostAccess a s).response = some .busError) :
    hostAccess a s = { s with response := some .busError } := by
  obtain ⟨r, ha⟩ | ⟨-, v, -, ha⟩ | ⟨-, i, v, -, ha⟩ | ⟨-, j, v, -, ha⟩ := hostAccess_cases a s
  · rw [ha] at h ⊢
    rw [show some r = some .busError from h]
  all_goals
    rw [ha] at h
    cases h

/-! ### The statements -/

/-- Settles O17: the read's answer is that of `hostRead_eq_okRead`. -/
theorem hostReadAnswersWholeRegistersAndChangesNothing :
    Obligations.HostReadAnswersWholeRegistersAndChangesNothing := fun s off n _ hturn =>
  ⟨hostRead s off n, step_of_host_read hturn, hostRead_ne_okWrite s off n, fun _ => hostRead_eq_okRead⟩

/-- Settles O18: a write to each kind of writable register while idle, and the two reasons of a refusal. -/
theorem hostWriteActsOnCommandWordsAndBytesOnly : Obligations.HostWriteActsOnCommandWordsAndBytesOnly := by
  intro s off d rest hturn
  refine ⟨?_, ?_, ?_, ?_⟩
  · rintro i v hs ho rfl
    exact step_of_host_write_accepted hturn hs (.w i) (by simpa [Reg.offset] using ho) rfl rfl
  · rintro j v hs ho rfl
    exact step_of_host_write_accepted hturn hs (.b j) (by simpa [Reg.offset] using ho) rfl rfl
  · rintro v hs ho rfl
    exact step_of_host_write_accepted hturn hs .cmd ho rfl rfl
  · rintro (hs | hno)
    · exact step_of_host_write_refused hturn (hostWrite_of_busy (s := { s with agenda := rest }) hs off d)
    · exact step_of_host_write_refused hturn (hostWrite_of_no_writable hno _)

/-- Settles O19: a refused access of any kind, at the state whose turn has been taken off the agenda. -/
theorem refusedAccessChangesNothing : Obligations.RefusedAccessChangesNothing := by
  intro s t a rest hturn h hrefused
  cases h.symm.trans (step_of_host hturn)
  exact hostAccess_of_refused hrefused

/-- Settles O20: no register has the access's offset and size, by where word and byte registers stand. -/
theorem wrongSizesAndUnmappedOffsetsAreRefused : Obligations.WrongSizesAndUnmappedOffsetsAreRefused := by
  rintro s off _ d hbad rfl
  have hnone : target off d.size = none := by
    refine target_eq_none.mpr fun q ⟨ho, hn⟩ => ?_
    rw [hn] at hbad
    obtain ⟨hword, haligned, hrange⟩ | ⟨hbyte, hrange⟩ := q.size_and_offset_range
    · simp only [hword, reduceCtorEq, true_and, false_and, false_or] at hbad
      omega
    · simp only [hbyte, reduceCtorEq, true_and, false_and, false_or, or_false] at hbad
      omega
  exact ⟨by simp only [hostRead, hnone], by simp only [hostWrite, hnone]⟩

/-- Settles O22: the two reads that answer in every sequencer state, and the refusal of every other access. -/
theorem busyUnitAnswersOnlyCommandAndStatusReads : Obligations.BusyUnitAnswersOnlyCommandAndStatusReads := by
  intro s a rest hs hturn
  refine ⟨?_, ?_, fun hcmd hstatus => ?_⟩
  · rintro rfl
    rw [step_of_host_read hturn, hostRead_cmd]
  · rintro rfl
    rw [step_of_host_read hturn, hostRead_status]
  · cases a with
    | read off n => rw [step_of_host_read hturn, hostRead_of_busy hs hcmd hstatus]
    | write off d =>
      exact step_of_host_write_refused hturn (hostWrite_of_busy (s := { s with agenda := rest }) hs off d)

/-- Settles O23: `DONE` is bit 1 of `STATUS`, and under the control invariant a unit with `DONE = 1` is idle. -/
theorem doneMeansTheUnitHasFinished : Obligations.DoneMeansTheUnitHasFinished := by
  intro s t rest hinv hturn h hbit
  have hdone : s.done = true := s.status_getLsbD_one.symm.trans hbit
  have hidle : s.seq = .idle := by
    cases hs : s.seq with
    | idle => rfl
    | busy => simp [hinv.busy_not_done hs] at hdone
  rw [step_of_host_read hturn, hostRead_status] at h
  cases h
  exact ⟨rfl, step_of_idle hidle (.inr ⟨rest, rfl⟩), hidle, hinv.err_fits_command hdone⟩

/-- Settles O21: `STATUS`, `MP` and `RV[i]` have no write rights. -/
theorem readOnlyRegistersRefuseWrites : Obligations.ReadOnlyRegistersRefuseWrites := by
  intro s off d rest hturn hoff
  refine step_of_host_write_refused hturn ?_
  obtain rfl | rfl | ⟨i, rfl⟩ := hoff
  · exact hostWrite_of_not_writable (r := .status) rfl rfl d _
  · exact hostWrite_of_not_writable (r := .mp) rfl rfl d _
  · exact hostWrite_of_not_writable (r := .rv i) rfl (by simp [Reg.offset]) d _

end Sys2Proof.Machine
end

section
/-! Proofs of the family spec/30_encoding.md: the command word read and written, the opcode map, and the lengths a command
accepts. -/

namespace Sys2Proof

/-! ### The decoder by the fields of the word (R80, R84, R85) -/

/-- `decode_ok` both ways: the words that decode, and to what. -/
theorem decode_eq_ok {c : Word} {i : Instr} :
    decode c = .ok i ↔ fieldZ1 c = 0 ∧ fieldZ0 c = 0 ∧
      ((fieldOp c = 1 ∧ i = .b2w (wselOfBits (fieldWsel c)) (fieldLen c).toNat) ∨
       (fieldOp c = 2 ∧ i = .w2b (wselOfBits (fieldWsel c)) (fieldLen c).toNat) ∨
       (fieldOp c = 3 ∧ fieldLen c = 0 ∧ i = .mprime (wselOfBits (fieldWsel c))) ∨
       (fieldOp c = 4 ∧ fieldLen c = 0 ∧ i = .rcalc (wselOfBits (fieldWsel c))) ∨
       (fieldOp c = 5 ∧ fieldLen c = 0 ∧ fieldWsel c = 0 ∧ i = .zero)) := by
  refine ⟨decode_ok, ?_⟩
  rintro ⟨hz1, hz0, ⟨hop, rfl⟩ | ⟨hop, rfl⟩ | ⟨hop, hlen, rfl⟩ | ⟨hop, hlen, rfl⟩ | ⟨hop, hlen, hws, rfl⟩⟩
  · simp [decode, hz1, hz0, hop]
  · simp [decode, hz1, hz0, hop]
  · simp [decode, hz1, hz0, hop, hlen]
  · simp [decode, hz1, hz0, hop, hlen]
  · simp [decode, hz1, hz0, hop, hlen, hws]

/-- R80: a word without reserved bits is format `C` of its three fields. -/
theorem commandWord_fields {c : Word} (hz1 : fieldZ1 c = 0) (hz0 : fieldZ0 c = 0) :
    commandWord (fieldLen c) (fieldWsel c) (fieldOp c) = c := by
  apply BitVec.eq_of_toNat_eq
  rw [commandWord_toNat, word_of_fields c, hz1, hz0]
  simp

/-- R85: the legal words, by their fields instead of by their number. -/
theorem not_illegalWord_iff {c : Word} :
    ¬ Safety.IllegalWord c ↔ fieldZ1 c = 0 ∧ fieldZ0 c = 0 ∧
      (fieldOp c = 1 ∨ fieldOp c = 2 ∨ (fieldOp c = 3 ∧ fieldLen c = 0) ∨ (fieldOp c = 4 ∧ fieldLen c = 0) ∨
       (fieldOp c = 5 ∧ fieldLen c = 0 ∧ fieldWsel c = 0)) := by
  simp only [Safety.IllegalWord, Safety.opOf, Safety.lenOf, Safety.wselOf, ← BitVec.toNat_inj, fieldZ1_toNat,
    fieldZ0_toNat, fieldOp_toNat, fieldLen_toNat, fieldWsel_toNat, BitVec.ofNat_eq_ofNat, BitVec.toNat_ofNat]
  omega

/-- R82, R86: selector 3 is read as the unsupported width. -/
theorem wselOfBits_of_wselOf {c : Word} (h : Safety.wselOf c = 3) : wselOfBits (fieldWsel c) = .unsupported := by
  have hc : fieldWsel c = 3 := BitVec.eq_of_toNat_eq ((fieldWsel_toNat c).trans h)
  rw [hc]
  rfl

/-! ### Round trips (R80, R81, R83, R88) -/

/-- Settles O1: the field lemmas of `commandWord` read back what `encode` wrote, and a well-formed length loses no bit. -/
theorem decodeOfEncodeReturnsTheCommand : Obligations.DecodeOfEncodeReturnsTheCommand := by
  intro i hwf
  cases i with
  | b2w ws len =>
    have hlen : len < 1024 := of_decide_eq_true hwf
    simp [encode, decode_eq_ok, Nat.mod_eq_of_lt hlen]
  | w2b ws len =>
    have hlen : len < 1024 := of_decide_eq_true hwf
    simp [encode, decode_eq_ok, Nat.mod_eq_of_lt hlen]
  | mprime ws => simp [encode, decode_eq_ok]
  | rcalc ws => simp [encode, decode_eq_ok]
  | zero => decide

theorem lenFits_fieldLen (c : Word) : lenFits (fieldLen c).toNat = true :=
  decide_eq_true (fieldLen c).isLt

/-- Settles O2: a word that decodes has no reserved bits, so it is `commandWord` of the fields the command was read from. -/
theorem encodeOfDecodeReturnsTheWord : Obligations.EncodeOfDecodeReturnsTheWord := by
  intro c i h
  obtain ⟨hz1, hz0, hrow⟩ := decode_ok h
  have hc := commandWord_fields hz1 hz0
  obtain ⟨hop, rfl⟩ | ⟨hop, rfl⟩ | ⟨hop, hlen, rfl⟩ | ⟨hop, hlen, rfl⟩ | ⟨hop, hlen, hws, rfl⟩ := hrow
  · exact ⟨lenFits_fieldLen c, by simpa [encode, hop] using hc⟩
  · exact ⟨lenFits_fieldLen c, by simpa [encode, hop] using hc⟩
  · exact ⟨rfl, by simpa [encode, hop, hlen] using hc⟩
  · exact ⟨rfl, by simpa [encode, hop, hlen] using hc⟩
  · exact ⟨rfl, by simpa [encode, hop, hlen, hws] using hc⟩

/-! ### The match and mask table (R83, R143) -/

/-- A mask is applied field by field: what a matching word has in each of the fields. -/
theorem fields_of_and_eq {c m p : Word} (h : c &&& m = p) :
    fieldZ1 c &&& fieldZ1 m = fieldZ1 p ∧ fieldLen c &&& fieldLen m = fieldLen p ∧
      fieldZ0 c &&& fieldZ0 m = fieldZ0 p ∧ fieldWsel c &&& fieldWsel m = fieldWsel p ∧
      fieldOp c &&& fieldOp m = fieldOp p := by
  subst h
  exact ⟨BitVec.extractLsb'_and.symm, BitVec.extractLsb'_and.symm, BitVec.extractLsb'_and.symm,
    BitVec.extractLsb'_and.symm, BitVec.extractLsb'_and.symm⟩

/-- Every row's mask keeps the reserved bits and the opcode, and no pattern has a reserved bit. -/
theorem fields_of_spells {r : OpcodeRow} (hr : r ∈ opcodeMap) {c : Word} (h : r.spells c = true) :
    fieldZ1 c = 0 ∧ fieldZ0 c = 0 ∧ fieldOp c = fieldOp r.pattern := by
  have hmask : ∀ r ∈ opcodeMap, fieldZ1 r.mask = BitVec.allOnes 6 ∧ fieldZ0 r.mask = BitVec.allOnes 10 ∧
      fieldOp r.mask = BitVec.allOnes 4 ∧ fieldZ1 r.pattern = 0 ∧ fieldZ0 r.pattern = 0 := by decide
  obtain ⟨hz1, -, hz0, -, hop⟩ := fields_of_and_eq (eq_of_beq h)
  obtain ⟨mz1, mz0, mop, pz1, pz0⟩ := hmask r hr
  rw [mz1, pz1, BitVec.and_allOnes] at hz1
  rw [mz0, pz0, BitVec.and_allOnes] at hz0
  rw [mop, BitVec.and_allOnes] at hop
  exact ⟨hz1, hz0, hop⟩

/-- R83: the rows of `MPRIME` and `RCALC` keep `LEN`. -/
theorem fieldLen_of_and_eq {c p : Word} (h : c &&& 0xFFFFFFCF = p) (hp : fieldLen p = 0) : fieldLen c = 0 := by
  obtain ⟨-, hlen, -⟩ := fields_of_and_eq h
  have hm : fieldLen 0xFFFFFFCF = BitVec.allOnes 10 := by decide
  rwa [hm, hp, BitVec.and_allOnes] at hlen

/-- R83: the word of every row decodes. -/
theorem decode_of_spells {r : OpcodeRow} (hr : r ∈ opcodeMap) {c : Word} (h : r.spells c = true) :
    ∃ i, decode c = .ok i := by
  obtain ⟨hz1, hz0, hop⟩ := fields_of_spells hr h
  have hc : c &&& r.mask = r.pattern := eq_of_beq h
  simp only [opcodeMap, List.mem_cons, List.not_mem_nil, or_false] at hr
  obtain rfl | rfl | rfl | rfl | rfl := hr
  · exact ⟨_, decode_eq_ok.mpr ⟨hz1, hz0, .inl ⟨hop, rfl⟩⟩⟩
  · exact ⟨_, decode_eq_ok.mpr ⟨hz1, hz0, .inr (.inl ⟨hop, rfl⟩)⟩⟩
  · exact ⟨_, decode_eq_ok.mpr ⟨hz1, hz0, .inr (.inr (.inl ⟨hop, fieldLen_of_and_eq hc rfl, rfl⟩))⟩⟩
  · exact ⟨_, decode_eq_ok.mpr ⟨hz1, hz0, .inr (.inr (.inr (.inl ⟨hop, fieldLen_of_and_eq hc rfl, rfl⟩)))⟩⟩
  · obtain rfl : c = 5 := BitVec.and_allOnes.symm.trans hc
    exact ⟨.zero, by decide⟩

/-- R83: the row of each command, for all commands at once. -/
theorem rowSpelled (i : Instr) : Laws.RowSpelled.Statement i := by
  cases i with
  | b2w ws len => exact Laws.RowSpelled.b2w ws len
  | w2b ws len => exact Laws.RowSpelled.w2b ws len
  | mprime ws => exact Laws.RowSpelled.mprime ws
  | rcalc ws => exact Laws.RowSpelled.rcalc ws
  | zero => exact Laws.RowSpelled.zero

/-- R83: a word that decodes spells the row of its command, being that command's word. -/
theorem spells_of_decode {c : Word} {i : Instr} (h : decode c = .ok i) :
    ∃ r ∈ opcodeMap, r.spells c = true ∧ r.mnemonic = mnemonic i := by
  obtain ⟨-, rfl⟩ := encodeOfDecodeReturnsTheWord c i h
  obtain ⟨r, hr, hm, hs⟩ := rowSpelled i
  exact ⟨r, hr, hs, hm⟩

/-- R83: the rows have five different opcodes. -/
theorem row_eq_of_fieldOp_eq : ∀ r ∈ opcodeMap, ∀ r' ∈ opcodeMap, fieldOp r.pattern = fieldOp r'.pattern → r = r' := by
  decide

/-- Settles O3: `decode_of_spells` and `spells_of_decode`; two rows spelled by one word have that word's opcode. -/
theorem decoderAcceptsExactlyTheOpcodeMap : Obligations.DecoderAcceptsExactlyTheOpcodeMap := by
  refine ⟨fun c => ⟨?_, ?_⟩, fun c i h => spells_of_decode h, fun c r hr r' hr' h h' => ?_⟩
  · rintro ⟨i, h⟩
    obtain ⟨r, hr, hs, -⟩ := spells_of_decode h
    exact ⟨r, hr, hs⟩
  · rintro ⟨r, hr, hs⟩
    exact decode_of_spells hr hs
  · obtain ⟨-, -, hop⟩ := fields_of_spells hr h
    obtain ⟨-, -, hop'⟩ := fields_of_spells hr' h'
    exact row_eq_of_fieldOp_eq r hr r' hr' (hop.symm.trans hop')

/-! ### The number of each command's word (R90) -/

theorem encode_b2w_toNat (ws : Wsel) {len : Nat} (h : len < 1024) :
    (encode (.b2w ws len)).toNat = len * 2 ^ 16 + (wselBits ws).toNat * 2 ^ 4 + 1 := by
  simp [encode, commandWord_toNat, Nat.mod_eq_of_lt h]

theorem encode_w2b_toNat (ws : Wsel) {len : Nat} (h : len < 1024) :
    (encode (.w2b ws len)).toNat = len * 2 ^ 16 + (wselBits ws).toNat * 2 ^ 4 + 2 := by
  simp [encode, commandWord_toNat, Nat.mod_eq_of_lt h]

theorem encode_mprime_toNat (ws : Wsel) : (encode (.mprime ws)).toNat = (wselBits ws).toNat * 2 ^ 4 + 3 := by
  simp [encode, commandWord_toNat]

theorem encode_rcalc_toNat (ws : Wsel) : (encode (.rcalc ws)).toNat = (wselBits ws).toNat * 2 ^ 4 + 4 := by
  simp [encode, commandWord_toNat]

/-! ### The selector of a width (R6, R82) -/

@[simp] theorem Width.selector_width (k : Width) : k.selector.width = some k := by cases k <;> rfl

end Sys2Proof

namespace Sys2Proof.Machine

/-! ### Selector 3 (R86, R153) -/

/-- R86: each of the four commands that take a width fails with `Internal` where the selector names none. -/
theorem exec_unsupported {i : Instr} {len : Nat}
    (hi : i ∈ [Instr.b2w .unsupported len, .w2b .unsupported len, .mprime .unsupported, .rcalc .unsupported]) (s : State) :
    exec i s = .next (s.complete .internal) := by
  simp only [List.mem_cons, List.not_mem_nil, or_false] at hi
  obtain rfl | rfl | rfl | rfl := hi <;>
    simp only [exec, execB2w, execW2b, execMprime, execRcalc, withWidth_unsupported, fail]

/-- Settles O36: the width test stands first in all four meanings; a legal word with an opcode other than 5 has one of the four
opcodes. -/
theorem unsupportedWidthCompletesWithInternal : Obligations.UnsupportedWidthCompletesWithInternal := by
  refine ⟨fun len s i hi => exec_unsupported hi s, fun c hlegal hop5 hws => ?_⟩
  have hw := wselOfBits_of_wselOf hws
  obtain ⟨hz1, hz0, hop⟩ := not_illegalWord_iff.mp hlegal
  obtain hop | hop | ⟨hop, hlen⟩ | ⟨hop, hlen⟩ | ⟨hop, -⟩ := hop
  · exact ⟨_, (fieldLen c).toNat, decode_eq_ok.mpr ⟨hz1, hz0, .inl ⟨hop, rfl⟩⟩, by simp [hw]⟩
  · exact ⟨_, (fieldLen c).toNat, decode_eq_ok.mpr ⟨hz1, hz0, .inr (.inl ⟨hop, rfl⟩)⟩, by simp [hw]⟩
  · exact ⟨_, 0, decode_eq_ok.mpr ⟨hz1, hz0, .inr (.inr (.inl ⟨hop, hlen, rfl⟩))⟩, by simp [hw]⟩
  · exact ⟨_, 0, decode_eq_ok.mpr ⟨hz1, hz0, .inr (.inr (.inr (.inl ⟨hop, hlen, rfl⟩)))⟩, by simp [hw]⟩
  · exact absurd ((fieldOp_toNat c).symm.trans (congrArg BitVec.toNat hop)) hop5

/-! ### The length checks (R126) -/

theorem exec_b2w_of_length_eq {ws : Wsel} {k : Width} (hw : ws.width = some k) (s : State) :
    exec (.b2w ws k.blockSize) s =
      .next (({ s with w := wordsOfBlock k s.b s.w } : State).clearValid.complete .ok) := by
  obtain ⟨hnone, -⟩ | ⟨k', hw', ⟨hne, -⟩ | ⟨-, he⟩⟩ := execB2w_cases ws k.blockSize s
  · simp [hw] at hnone
  · cases hw.symm.trans hw'
    exact absurd rfl hne
  · cases hw.symm.trans hw'
    exact he

theorem exec_b2w_of_length_ne {ws : Wsel} {k : Width} (hw : ws.width = some k) {len : Nat} (hne : len ≠ k.blockSize)
    (s : State) : exec (.b2w ws len) s = .next (s.complete .invalidBlockSize) := by
  obtain ⟨hnone, -⟩ | ⟨k', hw', ⟨-, he⟩ | ⟨heq, -⟩⟩ := execB2w_cases ws len s
  · simp [hw] at hnone
  · exact he
  · cases hw.symm.trans hw'
    exact absurd heq hne

theorem exec_w2b_of_capacity_le {ws : Wsel} {k : Width} (hw : ws.width = some k) {len : Nat} (hle : k.blockSize ≤ len)
    (s : State) : exec (.w2b ws len) s = .next (({ s with b := blockOfWords k s.w s.b } : State).complete .ok) := by
  obtain ⟨hnone, -⟩ | ⟨k', hw', ⟨hlt, -⟩ | ⟨-, he⟩⟩ := execW2b_cases ws len s
  · simp [hw] at hnone
  · cases hw.symm.trans hw'
    exact absurd hlt hle.not_gt
  · cases hw.symm.trans hw'
    exact he

/-- Settles O5: the sixteen words by evaluation, their arithmetic form for every length, and the three outcomes by the width
test and the length checks. -/
theorem commandWordsOfTheTable : Obligations.CommandWordsOfTheTable := by
  refine ⟨by decide, fun ws len h => ?_, fun s => ⟨?_, ?_, ?_⟩⟩
  · exact ⟨encode_b2w_toNat ws h, encode_w2b_toNat ws h, encode_mprime_toNat ws, encode_rcalc_toNat ws⟩
  · exact exec_unsupported (len := 128) (by simp) s
  · exact exec_b2w_of_length_ne (k := .w1024) rfl (by decide) s
  · exact ⟨_, exec_w2b_of_capacity_le (k := .w1024) rfl (by decide) s, rfl⟩

/-- Settles O6: the pseudo-commands declare the block size, which both length checks accept. -/
theorem pseudoCommandsPassTheLengthCheck : Obligations.PseudoCommandsPassTheLengthCheck := fun k =>
  ⟨rfl, rfl, fun s => ⟨_, _, exec_b2w_of_length_eq k.selector_width s, rfl,
    exec_w2b_of_capacity_le k.selector_width le_rfl s, rfl⟩⟩

end Sys2Proof.Machine
end

section
/-! Proofs of the family spec/40_montgomery.md: `MPRIME`, `RCALC`, and the key set-up from a block to its parameters. -/

namespace Sys2Proof.Machine

/-! ### Who changes the results (R107, R21, R22) -/

/-- R107: among the commands only `MPRIME` and `ZERO` write `MP`. -/
theorem Performs.mp_changed {i : Instr} {s t : State} (h : Performs s i t) (hne : t.mp ≠ s.mp) :
    (∃ ws, i = .mprime ws) ∨ i = .zero := by
  cases h with
  | failed | b2w | w2b | rcalc => simp at hne
  | mprime ws => exact .inl ⟨ws, rfl⟩
  | zero => exact .inr rfl

/-- R107: among the commands only `RCALC` and `ZERO` write `RV`. -/
theorem Performs.rv_changed {i : Instr} {s t : State} (h : Performs s i t) (hne : t.rv ≠ s.rv) :
    (∃ ws, i = .rcalc ws) ∨ i = .zero := by
  cases h with
  | failed | b2w | w2b | mprime => simp at hne
  | rcalc ws => exact .inl ⟨ws, rfl⟩
  | zero => exact .inr rfl

/-- R21, R22: a step that is neither a reset nor the completion of a command leaves `MP` and `RV` alone. -/
theorem Takes.results_kept {s t : State} (h : Takes s t) :
    (∃ rest, s.agenda = .reset :: rest) ∨
    (s.seq = .busy ∧ UnitHasTurn s ∧ ∃ i, decode s.cur = .ok i ∧ Performs { s with agenda := s.agenda.tail } i t) ∨
    (t.mp = s.mp ∧ t.rv = s.rv) := by
  cases h with
  | resets rest hturn _ => exact .inl ⟨rest, hturn⟩
  | completes hturn hbusy hc =>
    obtain ⟨i, hd, hi⟩ | rfl := completion_performs hc
    · exact .inr (.inl ⟨hbusy, hturn, i, hd, hi⟩)
    · exact .inr (.inr ⟨rfl, rfl⟩)
  | idles _ _ ht | starts _ _ _ _ ht | writesW _ _ _ _ _ ht | writesB _ _ _ _ _ ht =>
    exact .inr (.inr (by rw [ht]; exact ⟨rfl, rfl⟩))

/-- Settles O14: `Takes.results_kept`, and which command the completion performed. -/
theorem resultsChangeOnlyByTheirCommands : Obligations.ResultsChangeOnlyByTheirCommands := by
  intro s t h
  obtain hreset | ⟨hbusy, hturn, i, hd, hi⟩ | ⟨hmp, hrv⟩ := (step_takes h).results_kept
  · exact ⟨fun _ => .inl hreset, fun _ => .inl hreset⟩
  · refine ⟨fun hne => .inr ⟨hbusy, hturn, ?_⟩, fun hne => .inr ⟨hbusy, hturn, ?_⟩⟩
    · obtain ⟨ws, rfl⟩ | rfl := hi.mp_changed hne
      · exact .inl ⟨ws, hd⟩
      · exact .inr hd
    · obtain ⟨ws, rfl⟩ | rfl := hi.rv_changed hne
      · exact .inl ⟨ws, hd⟩
      · exact .inr hd
  · exact ⟨fun hne => absurd hmp hne, fun hne => absurd hrv hne⟩

/-! ### The two commands, by their operand (R101, R104) -/

theorem getLsbD_zero_of_odd {n0 : Word} (hodd : n0.toNat % 2 = 1) : n0.getLsbD 0 = true := by
  rw [getLsbD_zero_eq_odd, decide_eq_true hodd]

theorem getLsbD_zero_of_even {n0 : Word} (heven : n0.toNat % 2 = 0) : n0.getLsbD 0 = false := by
  rw [getLsbD_zero_eq_odd, decide_eq_false (by omega)]

theorem exists_width_of_ne_unsupported {ws : Wsel} (h : ws ≠ .unsupported) : ∃ k, ws.width = some k :=
  Option.ne_none_iff_exists'.mp fun hnone => h (ws.width_eq_none_iff.mp hnone)

theorem exec_mprime_of_odd {ws : Wsel} {k : Width} (hw : ws.width = some k) {s : State} (hodd : s.w[0].toNat % 2 = 1) :
    exec (.mprime ws) s = .next (({ s with mp := negInverse s.w[0], mpv := true } : State).complete .ok) := by
  simp only [exec, execMprime, withWidth_some hw, getLsbD_zero_of_odd hodd, if_true, succeed]

theorem exec_mprime_of_even {ws : Wsel} {k : Width} (hw : ws.width = some k) {s : State}
    (heven : s.w[0].toNat % 2 = 0) : exec (.mprime ws) s = .next (s.complete .modulusEven) := by
  simp only [exec, execMprime, withWidth_some hw, getLsbD_zero_of_even heven, Bool.false_eq_true, if_false, fail]

theorem exec_rcalc_of_ne_zero {ws : Wsel} {k : Width} (hw : ws.width = some k) {s : State}
    (hn : val s.w k.wordCount ≠ 0) :
    exec (.rcalc ws) s = .next
      (({ s with
          rv := wordsOfNat k.wordCount (rValue k.wordCount (val s.w k.wordCount)) s.rv,
          rvv := true } : State).complete .ok) := by
  simp only [exec, execRcalc, withWidth_some hw, if_neg hn, succeed]

theorem exec_rcalc_of_eq_zero {ws : Wsel} {k : Width} (hw : ws.width = some k) {s : State}
    (hn : val s.w k.wordCount = 0) : exec (.rcalc ws) s = .next (s.complete .modulusZero) := by
  simp only [exec, execRcalc, withWidth_some hw, if_pos hn, fail]

/-- R85: no illegal word decodes. -/
theorem decode_error_of_illegalWord {c : Word} (h : Safety.IllegalWord c) : ∃ e, decode c = .error e := by
  cases hd : decode c with
  | error e => exact ⟨e, rfl⟩
  | ok i =>
    obtain ⟨hz1, hz0, ⟨hop, -⟩ | ⟨hop, -⟩ | ⟨hop, hlen, -⟩ | ⟨hop, hlen, -⟩ | ⟨hop, hlen, hws, -⟩⟩ := decode_ok hd
    all_goals exact absurd h (not_illegalWord_iff.mpr ⟨hz1, hz0, by simp [*]⟩)

/-- R83: a word with the opcode of `MPRIME` or `RCALC` and any bit beside the selector's is illegal. -/
theorem illegalWord_of_opcode {c : Word} (hop : Safety.opOf c = 3 ∨ Safety.opOf c = 4) (h : 64 ≤ c.toNat) :
    Safety.IllegalWord c := by
  unfold Safety.IllegalWord
  simp only [Safety.opOf, Safety.lenOf] at hop ⊢
  omega

/-! ### Inverses modulo 2^32 (R101, R102) -/

/-- A product of words as the rules write it, over the unsigned integers. -/
theorem toNat_mul_mod_eq_iff {x y c : Word} : x.toNat * y.toNat % 2 ^ 32 = c.toNat ↔ x * y = c := by
  rw [← BitVec.toNat_mul, BitVec.toNat_inj]

/-- R102: both factors of a product that is odd modulo 2^32 are odd. -/
theorem odd_of_mul_mod_eq {x y c : Nat} (h : x * y % 2 ^ 32 = c) (hc : c % 2 = 1) : x % 2 = 1 ∧ y % 2 = 1 := by
  rw [← h, Nat.mod_mod_of_dvd _ (by norm_num), ← Nat.odd_iff, Nat.odd_mul] at hc
  exact hc.imp Nat.odd_iff.mp Nat.odd_iff.mp

/-- R102, R103: what the iteration computes is the inverse. -/
theorem inverseAfter_mul {n0 : Word} (hodd : n0.toNat % 2 = 1) : inverseAfter n0 5 * n0 = 1 := by
  have h := negInverse_mul n0 (getLsbD_zero_of_odd hodd)
  rwa [negInverse, neg_mul, neg_inj] at h

/-- R102: an odd word can be cancelled, so what it is multiplied by is determined by the product. -/
theorem eq_of_mul_eq {n0 x y c : Word} (hodd : n0.toNat % 2 = 1) (hx : x * n0 = c) (hy : y * n0 = c) : y = x :=
  (IsUnit.of_mul_eq_one_right _ (inverseAfter_mul hodd)).mul_left_inj.mp (hy.trans hx.symm)

/-- R102: `MP` belongs to the whole modulus, since the modulus is its lowest word modulo 2^32. -/
theorem negInverse_mul_val (x : Vector Word 128) (k : Width) (hodd : x[0].toNat % 2 = 1) :
    (negInverse x[0]).toNat * val x k.wordCount % 2 ^ 32 = 2 ^ 32 - 1 := by
  rw [← Nat.mul_mod_mod, val_mod x _ k.wordCount_pos k.wordCount_le]
  exact negInverse_toNat x[0] (getLsbD_zero_of_odd hodd)

/-- Settles O24: `exec` by the parity of the lowest word; the value by `negInverse_toNat`, alone by `eq_of_mul_eq`. -/
theorem mprimeComputesTheNegatedInverse : Obligations.MprimeComputesTheNegatedInverse := by
  refine ⟨fun ws s hws hodd => ?_, fun ws s hws heven => ?_, fun s => exec_unsupported (len := 0) (by simp) s,
    by decide, by decide, by decide,
    fun c hop hc => decode_error_of_illegalWord (illegalWord_of_opcode (.inl hop) hc)⟩
  · obtain ⟨k, hw⟩ := exists_width_of_ne_unsupported hws
    have hx := negInverse_toNat s.w[0] (getLsbD_zero_of_odd hodd)
    refine ⟨negInverse s.w[0], hx, fun y hy => ?_, ?_, fun h => by rw [h]; decide, fun h => by rw [h]; decide,
      fun h => by rw [h]; decide, exec_mprime_of_odd hw hodd⟩
    · exact eq_of_mul_eq (c := -1) hodd (toNat_mul_mod_eq_iff.mp hx) (toNat_mul_mod_eq_iff.mp hy)
    · exact (odd_of_mul_mod_eq hx (by norm_num)).1
  · obtain ⟨k, hw⟩ := exists_width_of_ne_unsupported hws
    exact exec_mprime_of_even hw heven

/-- Settles O25: `MP` is by definition the negation of the inverse; a product with an even factor is not 1. -/
theorem mprimeInvertsTheWholeModulus : Obligations.MprimeInvertsTheWholeModulus := by
  refine ⟨fun ws k s hw hodd => ?_, fun n0 y heven h => ?_⟩
  · have hinv := inverseAfter_mul hodd
    exact ⟨inverseAfter s.w[0] 5, _, (toNat_mul_mod_eq_iff (c := 1)).mpr hinv,
      fun y hy => eq_of_mul_eq hodd hinv (toNat_mul_mod_eq_iff.mp hy), exec_mprime_of_odd hw hodd,
      BitVec.toNat_neg _, negInverse_mul_val s.w k hodd⟩
  · obtain ⟨-, hodd⟩ := odd_of_mul_mod_eq h rfl
    omega

/-! ### The R-value and its words (R104, R105, R106) -/

/-- R104: the word that the rule writes for place `i`. -/
theorem wordOfNat_toNat (r i : Nat) : (wordOfNat r i).toNat = r / 2 ^ (32 * i) % 2 ^ 32 :=
  BitVec.toNat_ofNat _ _

/-- R106: an integer that fits `j` words has zero words from `j` up. -/
theorem wordOfNat_eq_zero {r i j : Nat} (hr : r < 2 ^ (32 * j)) (hij : j ≤ i) : wordOfNat r i = 0 := by
  have hle : 2 ^ (32 * j) ≤ 2 ^ (32 * i) := Nat.pow_le_pow_right (by norm_num) (by omega)
  rw [wordOfNat, Nat.div_eq_of_lt (hr.trans_le hle)]
  rfl

theorem wordsOfNat_getElem_lt {wc i : Nat} (r : Nat) (rv : Vector Word 128) (h : i < 128) (hi : i < wc) :
    (wordsOfNat wc r rv)[i] = wordOfNat r i := by
  rw [wordsOfNat_getElem, if_pos hi]

theorem wordsOfNat_getElem_ge {wc i : Nat} (r : Nat) (rv : Vector Word 128) (h : i < 128) (hi : wc ≤ i) :
    (wordsOfNat wc r rv)[i] = rv[i] := by
  rw [wordsOfNat_getElem, if_neg hi.not_gt]

/-- Settles O26: `exec` by whether the modulus is zero, and the words of `wordsOfNat`. -/
theorem rcalcComputesTheRValue : Obligations.RcalcComputesTheRValue := by
  refine ⟨fun ws k s hw hn => ⟨_, fun i h hi => ?_, fun i h hi => ?_, exec_rcalc_of_ne_zero hw hn⟩,
    fun ws k s hw hn => exec_rcalc_of_eq_zero hw hn, fun s => exec_unsupported (len := 0) (by simp) s,
    by decide, by decide, by decide,
    fun c hop hc => decode_error_of_illegalWord (illegalWord_of_opcode (.inr hop) hc)⟩
  · rw [wordsOfNat_getElem_lt _ _ h hi, wordOfNat_toNat, rValue]
  · exact wordsOfNat_getElem_ge _ _ h hi

/-- Settles O27: `RV` denotes the remainder (`val_of_rcalc`), and the remainder is the least residue. -/
theorem rcalcStoresTheLeastResidue : Obligations.RcalcStoresTheLeastResidue := by
  intro ws k s hw hn
  refine ⟨_, exec_rcalc_of_ne_zero hw hn, ?_⟩
  simp only [State.complete_rv, val_of_rcalc s.w s.rv k hn]
  exact ⟨Nat.mod_lt _ (Nat.pos_of_ne_zero hn), val_lt s.w _ k.wordCount_le, Nat.dvd_sub_mod _, Nat.mod_le _ _⟩

/-- R106: a power of two that fits the width divides the dividend. -/
theorem rValue_two_pow {wc e : Nat} (he : e ≤ 32 * wc - 1) : rValue wc (2 ^ e) = 0 :=
  Nat.mod_eq_zero_of_dvd (pow_dvd_pow 2 (by omega))

/-- R106: words that are all ones denote the largest integer of their number. -/
theorem val_allOnes (x : Vector Word 128) : ∀ n, n ≤ 128 → (∀ i (h : i < 128), i < n → x[i] = 0xFFFFFFFF) →
    val x n + 1 = 2 ^ (32 * n)
  | 0, _, _ => by simp
  | n + 1, hn, hx => by
    have ih := val_allOnes x n (by omega) fun i h hi => hx i h (by omega)
    have htop : x[n].toNat = 2 ^ 32 - 1 := congrArg BitVec.toNat (hx n (by omega) (by omega))
    rw [val_succ x n (by omega), htop, Nat.mul_succ, Nat.pow_add, ← ih]
    omega

/-- R106: with `m + 1 = 2^(32*wc)` the dividend is `(m + 1)^2`, which is 1 modulo `m`. -/
theorem rValue_of_allOnes {wc m : Nat} (hwc : 0 < wc) (hm : m + 1 = 2 ^ (32 * wc)) : rValue wc m = 1 := by
  have hbig : 2 ^ 2 ≤ 2 ^ (32 * wc) := Nat.pow_le_pow_right (by norm_num) (by omega)
  have hsq : 2 ^ (64 * wc) = 1 + m * (m + 2) := by
    rw [show 64 * wc = 32 * wc + 32 * wc by omega, Nat.pow_add, ← hm]
    ring
  rw [rValue, hsq, Nat.add_mul_mod_self_left, Nat.mod_eq_of_lt (by omega)]

/-- Settles O28: each corner case is a value of `rValue`, or a bound on it, read off its words. -/
theorem rcalcCornerCases : Obligations.RcalcCornerCases := by
  refine fun ws k s hw => ⟨exec_rcalc_of_eq_zero hw, fun hn =>
    ⟨_, exec_rcalc_of_ne_zero hw hn, rfl, val_of_rcalc s.w s.rv k hn, ?_, ?_, ?_, fun i h hi => ?_⟩⟩
  · rintro ⟨e, he, hval⟩ i h hi
    simp only [State.complete_rv, wordsOfNat_getElem_lt _ _ h hi, hval, rValue_two_pow he]
    exact wordOfNat_eq_zero (j := 0) (by norm_num) i.zero_le
  · intro j hj i h hji hi
    simp only [State.complete_rv, wordsOfNat_getElem_lt _ _ h hi]
    exact wordOfNat_eq_zero ((Nat.mod_lt _ (Nat.pos_of_ne_zero hn)).trans hj) hji
  · intro hones
    have hr := rValue_of_allOnes k.wordCount_pos (val_allOnes s.w _ k.wordCount_le hones)
    refine ⟨?_, fun i h h1 hi => ?_⟩
    · simp only [State.complete_rv, wordsOfNat_getElem_lt _ _ _ k.wordCount_pos, hr]
      rfl
    · simp only [State.complete_rv, wordsOfNat_getElem_lt _ _ h hi, hr]
      exact wordOfNat_eq_zero (j := 1) (by norm_num) h1
  · exact wordsOfNat_getElem_ge _ _ h hi

/-! ### The modulus alone (R100) -/

/-- Settles O29: `MPRIME` reads the lowest word and `RCALC` the integer of the words of the width. -/
theorem montgomeryResultsDependOnTheModulusAlone : Obligations.MontgomeryResultsDependOnTheModulusAlone := by
  intro ws k s s' hw hsame
  have hlow : s.w[0] = s'.w[0] := hsame 0 (by omega) k.wordCount_pos
  have hval : val s.w k.wordCount = val s'.w k.wordCount := val_congr _ _ _ k.wordCount_le hsame
  constructor
  · obtain heven | hodd := Nat.mod_two_eq_zero_or_one s.w[0].toNat
    · exact ⟨_, _, exec_mprime_of_even hw heven, exec_mprime_of_even hw (hlow ▸ heven), rfl, fun h => nomatch h⟩
    · exact ⟨_, _, exec_mprime_of_odd hw hodd, exec_mprime_of_odd hw (hlow ▸ hodd), rfl,
        fun _ => congrArg negInverse hlow⟩
  · by_cases hn : val s.w k.wordCount = 0
    · exact ⟨_, _, exec_rcalc_of_eq_zero hw hn, exec_rcalc_of_eq_zero hw (hval ▸ hn), rfl, fun h => nomatch h⟩
    · refine ⟨_, _, exec_rcalc_of_ne_zero hw hn, exec_rcalc_of_ne_zero hw (hval ▸ hn), rfl, fun _ i h hi => ?_⟩
      simp only [State.complete_rv, wordsOfNat_getElem_lt _ _ h hi, hval]

/-! ### From a block to its parameters (R121, R123, R184) -/

/-- R123: the last `4 * n` bytes of the block are the lowest `n` words of its conversion. -/
theorem valB_split (k : Width) (b : Vector Byte 512) (w : Vector Word 128) : ∀ n, n ≤ k.wordCount →
    valB b k.blockSize = valB b (k.blockSize - 4 * n) * 2 ^ (32 * n) + val (wordsOfBlock k b w) n
  | 0, _ => by simp
  | n + 1, hn => by
    have hbs := k.blockSize_eq
    have hwc := k.wordCount_le
    obtain ⟨m, hm⟩ : ∃ m, k.blockSize = m + 4 + 4 * n := ⟨k.blockSize - 4 * (n + 1), by omega⟩
    have hword : valB b (m + 4) = valB b m * 2 ^ 32 + (wordOfBlock k b n).toNat := by
      rw [valB_succ b (m + 3) (by omega), valB_succ b (m + 2) (by omega), valB_succ b (m + 1) (by omega),
        valB_succ b m (by omega), wordOfBlock_toNat]
      simp only [reversedByte, show k.blockSize - 1 - 4 * n = m + 3 by omega,
        show k.blockSize - 1 - (4 * n + 1) = m + 2 by omega, show k.blockSize - 1 - (4 * n + 2) = m + 1 by omega,
        show k.blockSize - 1 - (4 * n + 3) = m by omega]
      ring
    rw [valB_split k b w n (by omega), show k.blockSize - 4 * n = m + 4 by omega,
      show k.blockSize - 4 * (n + 1) = m by omega, hword, val_succ _ n (by omega), wordsOfBlock_getElem,
      if_pos (by omega)]
    ring

/-- R123: the words of a converted block denote the block's integer. -/
theorem val_wordsOfBlock (k : Width) (b : Vector Byte 512) (w : Vector Word 128) :
    val (wordsOfBlock k b w) k.wordCount = valB b k.blockSize := by
  rw [valB_split k b w k.wordCount le_rfl, k.blockSize_eq, Nat.sub_self, valB_zero, Nat.zero_mul, Nat.zero_add]

/-- R102: the lowest word is odd exactly when the integer is. -/
theorem lowest_word_mod_two (x : Vector Word 128) (k : Width) : x[0].toNat % 2 = val x k.wordCount % 2 := by
  rw [← val_mod x _ k.wordCount_pos k.wordCount_le, Nat.mod_mod_of_dvd _ (by norm_num)]

/-- Settles O46: `B2W` puts the block's integer into `W` (`val_wordsOfBlock`), and an odd integer is not zero. -/
theorem blockBecomesItsMontgomeryParameters : Obligations.BlockBecomesItsMontgomeryParameters := by
  intro ws k s hw hblock
  have hval := val_wordsOfBlock k s.b s.w
  have hodd : (wordsOfBlock k s.b s.w)[0].toNat % 2 = 1 := by rw [lowest_word_mod_two _ k, hval, hblock]
  have hn : val (wordsOfBlock k s.b s.w) k.wordCount ≠ 0 := by omega
  refine ⟨_, _, _, exec_b2w_of_length_eq hw s, exec_mprime_of_odd hw hodd, exec_rcalc_of_ne_zero hw hn, rfl, rfl, rfl,
    rfl, ?_, ?_⟩
  · rw [← hval]
    exact negInverse_mul_val _ k hodd
  · rw [← hval]
    exact val_of_rcalc _ _ k hn

end Sys2Proof.Machine
end

section
/-! Proofs of the family spec/41_marshal.md: the bytes of `B2W` and `W2B`, the round trips between a block and its words,
and the storage beyond a command's width. -/

namespace Sys2Proof.Machine

/-! ### The two commands, by their length (R121, R124, R126) -/

theorem exec_w2b_of_capacity_lt {ws : Wsel} {k : Width} (hw : ws.width = some k) {len : Nat} (hlt : len < k.blockSize)
    (s : State) : exec (.w2b ws len) s = .next (s.complete .bufferTooSmall) := by
  obtain ⟨hnone, -⟩ | ⟨k', hw', ⟨-, he⟩ | ⟨hle, -⟩⟩ := execW2b_cases ws len s
  · simp [hw] at hnone
  · exact he
  · cases hw.symm.trans hw'
    exact absurd hlt hle.not_gt

/-- R85: a word with a reserved bit set spells no command, whatever its opcode. -/
theorem decode_error_of_reserved_bits {c : Word} (h : c.toNat / 2 ^ 26 ≠ 0 ∨ c.toNat / 2 ^ 6 % 2 ^ 10 ≠ 0) :
    ∃ e, decode c = .error e :=
  decode_error_of_illegalWord (h.imp_right .inl)

/-! ### The bytes of a block and of its words (R121, R124) -/

theorem wordsOfBlock_getElem_lt {k : Width} {i : Nat} (b : Vector Byte 512) (w : Vector Word 128) (h : i < 128)
    (hi : i < k.wordCount) : (wordsOfBlock k b w)[i] = wordOfBlock k b i := by
  rw [wordsOfBlock_getElem, if_pos hi]

theorem wordsOfBlock_getElem_ge {k : Width} {i : Nat} (b : Vector Byte 512) (w : Vector Word 128) (h : i < 128)
    (hi : k.wordCount ≤ i) : (wordsOfBlock k b w)[i] = w[i] := by
  rw [wordsOfBlock_getElem, if_neg hi.not_gt]

theorem blockOfWords_getElem_lt {k : Width} {j : Nat} (w : Vector Word 128) (b : Vector Byte 512) (h : j < 512)
    (hj : j < k.blockSize) : (blockOfWords k w b)[j] = byteOfWords k w j := by
  rw [blockOfWords_getElem, if_pos hj]

theorem blockOfWords_getElem_ge {k : Width} {j : Nat} (w : Vector Word 128) (b : Vector Byte 512) (h : j < 512)
    (hj : k.blockSize ≤ j) : (blockOfWords k w b)[j] = b[j] := by
  rw [blockOfWords_getElem, if_neg hj.not_gt]

/-- R121: the places `j` and `m` mirror each other in the block. -/
theorem getElem_eq_reversedByte {k : Width} {j m : Nat} (hjm : j + m + 1 = k.blockSize) (b : Vector Byte 512)
    (h : j < 512) : b[j] = reversedByte k b m := by
  obtain rfl : j = k.blockSize - 1 - m := by omega
  rfl

/-- R121: byte `r` of word `i` of a block is byte `4 * i + r` of the reversed block. -/
theorem extractLsb'_wordOfBlock (k : Width) (b : Vector Byte 512) (i : Nat) {r : Nat} (hr : r < 4) :
    (wordOfBlock k b i).extractLsb' (8 * r) 8 = reversedByte k b (4 * i + r) := by
  have h0 := (reversedByte k b (4 * i)).isLt
  have h1 := (reversedByte k b (4 * i + 1)).isLt
  have h2 := (reversedByte k b (4 * i + 2)).isLt
  have h3 := (reversedByte k b (4 * i + 3)).isLt
  apply BitVec.eq_of_toNat_eq
  rw [BitVec.extractLsb'_toNat, Nat.shiftRight_eq_div_pow, wordOfBlock_toNat]
  interval_cases r
  · simp only [Nat.mul_zero, Nat.pow_zero, Nat.div_one, Nat.add_zero]
    omega
  all_goals omega

/-- R124: byte `4 * i + r` of the reversed block that was made of words is byte `r` of word `i`. -/
theorem reversedByte_blockOfWords {k : Width} {i r : Nat} (hi : i < k.wordCount) (hr : r < 4) (w : Vector Word 128)
    (b : Vector Byte 512) :
    reversedByte k (blockOfWords k w b) (4 * i + r) =
      (w[i]'(hi.trans_le k.wordCount_le)).extractLsb' (8 * r) 8 := by
  have hbs := k.blockSize_eq
  have hm : k.blockSize - 1 - (k.blockSize - 1 - (4 * i + r)) = 4 * i + r := by omega
  rw [reversedByte, blockOfWords_getElem_lt _ _ _ (by omega), byteOfWords]
  simp only [hm, show (4 * i + r) / 4 = i by omega, show (4 * i + r) % 4 = r by omega]

/-- R121, R124: a word is the concatenation of its four bytes. -/
theorem append_bytes (x : Word) :
    x.extractLsb' (8 * 3) 8 ++ x.extractLsb' (8 * 2) 8 ++ x.extractLsb' (8 * 1) 8 ++ x.extractLsb' (8 * 0) 8 = x := by
  apply BitVec.eq_of_toNat_eq
  simp only [append_toNat, BitVec.extractLsb'_toNat, Nat.shiftRight_eq_div_pow]
  omega

/-- R124: the byte that the rule puts `4 * i + r` places before the last byte of the block. -/
theorem blockOfWords_toNat {k : Width} {i r j : Nat} (hi : i < k.wordCount) (hr : r < 4)
    (hj : j + (4 * i + r) + 1 = k.blockSize) (w : Vector Word 128) (b : Vector Byte 512) (h : j < 512) :
    (blockOfWords k w b)[j].toNat = (w[i]'(hi.trans_le k.wordCount_le)).toNat / 2 ^ (8 * r) % 2 ^ 8 := by
  rw [getElem_eq_reversedByte hj, reversedByte_blockOfWords hi hr, BitVec.extractLsb'_toNat,
    Nat.shiftRight_eq_div_pow]

/-- Settles O30: `exec` by the length, the words by `wordOfBlock_toNat`, whose bytes stand where the rule has them. -/
theorem b2wConvertsTheBlock : Obligations.B2wConvertsTheBlock := by
  refine ⟨fun ws k s hw => ⟨_, fun i h hi => ?_, fun i h hi => wordsOfBlock_getElem_ge _ _ h hi,
      exec_b2w_of_length_eq hw s⟩,
    fun ws k len s hw hne => exec_b2w_of_length_ne hw hne s, fun len s => exec_unsupported (len := len) (by simp) s,
    fun ws len hlen => encode_b2w_toNat ws hlen, fun c _ hc => decode_error_of_reserved_bits hc⟩
  have hbs := k.blockSize_eq
  rw [wordsOfBlock_getElem_lt _ _ h hi, wordOfBlock_toNat,
    getElem_eq_reversedByte (k := k) (m := 4 * i) (by omega),
    getElem_eq_reversedByte (k := k) (m := 4 * i + 1) (by omega),
    getElem_eq_reversedByte (k := k) (m := 4 * i + 2) (by omega),
    getElem_eq_reversedByte (k := k) (m := 4 * i + 3) (by omega)]

/-- Settles O31: `val_wordsOfBlock` of the state that `B2W` leaves. -/
theorem b2wKeepsTheValue : Obligations.B2wKeepsTheValue := fun _ k s hw =>
  ⟨_, exec_b2w_of_length_eq hw s, val_wordsOfBlock k s.b s.w⟩

/-- Settles O32: `exec` by the capacity, the four bytes of each word by `blockOfWords_toNat`. -/
theorem w2bConvertsTheWords : Obligations.W2bConvertsTheWords := by
  refine ⟨fun ws k len s hw hle => ⟨_, fun i h hi => ?_, fun j h hj => blockOfWords_getElem_ge _ _ h hj,
      exec_w2b_of_capacity_le hw hle s⟩,
    fun ws k len s hw hlt => exec_w2b_of_capacity_lt hw hlt s, fun len s => exec_unsupported (len := len) (by simp) s,
    fun ws len hlen => encode_w2b_toNat ws hlen, fun c _ hc => decode_error_of_reserved_bits hc⟩
  have hbs := k.blockSize_eq
  refine ⟨?_, blockOfWords_toNat (r := 1) hi (by omega) (by omega) _ _ _,
    blockOfWords_toNat (r := 2) hi (by omega) (by omega) _ _ _,
    blockOfWords_toNat (r := 3) hi (by omega) (by omega) _ _ _⟩
  rw [blockOfWords_toNat (r := 0) hi (by omega) (by omega), Nat.mul_zero, Nat.pow_zero, Nat.div_one]

/-! ### The round trips (R125) -/

/-- R125 (a): each byte of a block can be read back from the block's words. -/
theorem getElem_eq_byte_of_wordOfBlock {k : Width} {j : Nat} (hj : j < k.blockSize) (b : Vector Byte 512)
    (h : j < 512) :
    b[j] = (wordOfBlock k b ((k.blockSize - 1 - j) / 4)).extractLsb' (8 * ((k.blockSize - 1 - j) % 4)) 8 := by
  rw [extractLsb'_wordOfBlock _ _ _ (Nat.mod_lt _ (by norm_num)), Nat.div_add_mod]
  exact getElem_eq_reversedByte (by omega) b h

/-- The word that byte `j` of a block belongs to is one of the width. -/
theorem word_of_byte_lt (k : Width) (j : Nat) : (k.blockSize - 1 - j) / 4 < k.wordCount := by
  have hbs := k.blockSize_eq
  have hwc := k.wordCount_pos
  omega

/-- R125 (a). -/
theorem blockOfWords_wordsOfBlock (k : Width) (b : Vector Byte 512) (w : Vector Word 128) :
    blockOfWords k (wordsOfBlock k b w) b = b := by
  ext1 j h
  obtain hj | hj := Nat.lt_or_ge j k.blockSize
  · rw [blockOfWords_getElem_lt _ _ h hj, byteOfWords, wordsOfBlock_getElem_lt _ _ _ (word_of_byte_lt k j)]
    exact (getElem_eq_byte_of_wordOfBlock hj b h).symm
  · exact blockOfWords_getElem_ge _ _ h hj

/-- R125 (b), word by word: the block that was made of words has these words. -/
theorem wordOfBlock_blockOfWords {k : Width} {i : Nat} (hi : i < k.wordCount) (w : Vector Word 128)
    (b : Vector Byte 512) : wordOfBlock k (blockOfWords k w b) i = w[i]'(hi.trans_le k.wordCount_le) := by
  have hbyte {r : Nat} (hr : r < 4) := reversedByte_blockOfWords hi hr w b
  rw [wordOfBlock, hbyte (by omega), hbyte (by omega), hbyte (by omega), ← Nat.add_zero (4 * i), hbyte (by omega)]
  exact append_bytes _

/-- R125 (b). -/
theorem wordsOfBlock_blockOfWords (k : Width) (b : Vector Byte 512) (w : Vector Word 128) :
    wordsOfBlock k (blockOfWords k w b) w = w := by
  ext1 i h
  obtain hi | hi := Nat.lt_or_ge i k.wordCount
  · rw [wordsOfBlock_getElem_lt _ _ h hi, wordOfBlock_blockOfWords hi]
  · exact wordsOfBlock_getElem_ge _ _ h hi

/-- R125 (c): R123 for the block that was made of the words. -/
theorem valB_blockOfWords (k : Width) (w : Vector Word 128) (b : Vector Byte 512) :
    valB (blockOfWords k w b) k.blockSize = val w k.wordCount := by
  rw [← val_wordsOfBlock k _ w, wordsOfBlock_blockOfWords]

/-- Settles O33: (a), (b) and (c) by the laws above; different blocks have different words because each byte can be read
back, and given words are those of the block made of them. -/
theorem marshalRoundTrips : Obligations.MarshalRoundTrips := by
  intro ws k hw
  have hb2w := exec_b2w_of_length_eq hw
  have hw2b := exec_w2b_of_capacity_le hw le_rfl
  refine ⟨fun s => ⟨_, _, hb2w s, hw2b _, blockOfWords_wordsOfBlock k s.b s.w⟩,
    fun s => ⟨_, _, hw2b s, hb2w _, wordsOfBlock_blockOfWords k s.b s.w, rfl, rfl⟩,
    fun s => ⟨_, hw2b s, valB_blockOfWords k s.w s.b⟩, fun s s' t t' ht ht' hsame j h hj => ?_,
    fun s w' => ⟨blockOfWords k w' s.b, _, hb2w _, fun i h hi => ?_⟩⟩
  · cases (hb2w s).symm.trans ht
    cases (hb2w s').symm.trans ht'
    have hlt := word_of_byte_lt k j
    have hword := hsame _ (hlt.trans_le k.wordCount_le) hlt
    simp only [State.complete_w, State.clearValid_w, wordsOfBlock_getElem_lt _ _ _ hlt] at hword
    rw [getElem_eq_byte_of_wordOfBlock hj s.b h, hword, ← getElem_eq_byte_of_wordOfBlock hj s'.b h]
  · exact (wordsOfBlock_getElem_lt _ _ h hi).trans (wordOfBlock_blockOfWords hi w' s.b)

/-! ### The storage beyond the width (R122) -/

/-- R122: what a block's words are made of is below the block size. -/
theorem wordOfBlock_congr {k : Width} {b b' : Vector Byte 512}
    (hb : ∀ j (h : j < 512), j < k.blockSize → b[j] = b'[j]) : wordOfBlock k b = wordOfBlock k b' := by
  have hbs := k.blockSize_eq
  have hwc := k.wordCount_pos
  have hbyte : reversedByte k b = reversedByte k b' := funext fun _ => hb _ _ (by omega)
  funext i
  simp only [wordOfBlock, hbyte]

/-- R122: what a block is made of is below the word count. -/
theorem byteOfWords_congr {k : Width} {w w' : Vector Word 128}
    (hw : ∀ i (h : i < 128), i < k.wordCount → w[i] = w'[i]) : byteOfWords k w = byteOfWords k w' := by
  funext j
  rw [byteOfWords, byteOfWords, hw _ _ (word_of_byte_lt k j)]

/-- R122: two files whose low entries were overwritten with the same values agree there, whatever they held. -/
theorem overwriteLow_agree {α : Type} {m n : Nat} {f f' : Nat → α} (hf : f = f') (v v' : Vector α m) (i : Nat)
    (h : i < m) (hi : i < n) : (overwriteLow n f v)[i] = (overwriteLow n f' v')[i] := by
  rw [overwriteLow_getElem, overwriteLow_getElem, if_pos hi, if_pos hi, hf]

theorem agreeBelow_refl (k : Width) (s : State) : Safety.AgreeBelow k s s :=
  ⟨fun _ _ _ => rfl, fun _ _ _ => rfl, fun _ _ _ => rfl, rfl, rfl, rfl, rfl, rfl, rfl, rfl⟩

theorem agreeBelow_clearValid {k : Width} {s s' : State} (h : Safety.AgreeBelow k s s') :
    Safety.AgreeBelow k s.clearValid s'.clearValid :=
  ⟨h.w, h.rv, h.b, h.mp, h.cur, h.seq, h.done, h.err, rfl, rfl⟩

theorem sameAbove_refl (k : Width) (s : State) : Safety.SameAbove k s s :=
  ⟨fun _ _ _ => ⟨rfl, rfl⟩, fun _ _ _ => rfl⟩

/-- R122: a command takes two states to states that agree below the width, and touches nothing above it. -/
def CompletesAlike (k : Width) (i : Instr) (s s' : State) : Prop :=
  ∃ t t', exec i s = .next t ∧ exec i s' = .next t' ∧ Safety.AgreeBelow k t t' ∧ Safety.SameAbove k s t

/-- R122: the storage above the width is kept by a command and has no influence on what it does. -/
def InertAbove (k : Width) (i : Instr) : Prop :=
  ∀ s s' : State, Safety.AgreeBelow k s s' → CompletesAlike k i s s'

/-- R31: a completion sets the same control state in both and touches no storage: only the updates before it matter. -/
theorem completesAlike_of_complete {k : Width} {i : Instr} {s s' u u' : State} {e : ErrorCode}
    (he : exec i s = .next (u.complete e)) (he' : exec i s' = .next (u'.complete e)) (hu : Safety.AgreeBelow k u u')
    (habove : Safety.SameAbove k s u) : CompletesAlike k i s s' :=
  ⟨_, _, he, he', ⟨hu.w, hu.rv, hu.b, hu.mp, hu.cur, rfl, rfl, rfl, hu.mpv, hu.rvv⟩, habove⟩

section

variable {ws : Wsel} {k : Width} (hw : ws.width = some k)
include hw

theorem inertAbove_mprime : InertAbove k (.mprime ws) := by
  intro s s' hs
  have hlow : s.w[0] = s'.w[0] := hs.w 0 (by omega) k.wordCount_pos
  obtain heven | hodd := Nat.mod_two_eq_zero_or_one s.w[0].toNat
  · exact completesAlike_of_complete (exec_mprime_of_even hw heven) (exec_mprime_of_even hw (hlow ▸ heven)) hs
      (sameAbove_refl k s)
  · refine completesAlike_of_complete (exec_mprime_of_odd hw hodd) (exec_mprime_of_odd hw (hlow ▸ hodd)) ?_
      ⟨fun _ _ _ => ⟨rfl, rfl⟩, fun _ _ _ => rfl⟩
    exact ⟨hs.w, hs.rv, hs.b, congrArg negInverse hlow, hs.cur, hs.seq, hs.done, hs.err, rfl, hs.rvv⟩

theorem inertAbove_rcalc : InertAbove k (.rcalc ws) := by
  intro s s' hs
  have hval : val s.w k.wordCount = val s'.w k.wordCount := val_congr _ _ _ k.wordCount_le hs.w
  by_cases hn : val s.w k.wordCount = 0
  · exact completesAlike_of_complete (exec_rcalc_of_eq_zero hw hn) (exec_rcalc_of_eq_zero hw (hval ▸ hn)) hs
      (sameAbove_refl k s)
  · refine completesAlike_of_complete (exec_rcalc_of_ne_zero hw hn) (exec_rcalc_of_ne_zero hw (hval ▸ hn)) ?_
      ⟨fun i h hi => ⟨rfl, wordsOfNat_getElem_ge _ _ h hi⟩, fun _ _ _ => rfl⟩
    exact { hs with rv := overwriteLow_agree (by rw [hval]) _ _, rvv := rfl }

theorem inertAbove_b2w (len : Nat) : InertAbove k (.b2w ws len) := by
  intro s s' hs
  by_cases hlen : len = k.blockSize
  · subst hlen
    refine completesAlike_of_complete (exec_b2w_of_length_eq hw s) (exec_b2w_of_length_eq hw s') ?_
      ⟨fun i h hi => ⟨wordsOfBlock_getElem_ge _ _ h hi, rfl⟩, fun _ _ _ => rfl⟩
    exact agreeBelow_clearValid { hs with w := overwriteLow_agree (wordOfBlock_congr hs.b) _ _ }
  · exact completesAlike_of_complete (exec_b2w_of_length_ne hw hlen s) (exec_b2w_of_length_ne hw hlen s') hs
      (sameAbove_refl k s)

theorem inertAbove_w2b (len : Nat) : InertAbove k (.w2b ws len) := by
  intro s s' hs
  obtain hlt | hle := Nat.lt_or_ge len k.blockSize
  · exact completesAlike_of_complete (exec_w2b_of_capacity_lt hw hlt s) (exec_w2b_of_capacity_lt hw hlt s') hs
      (sameAbove_refl k s)
  · refine completesAlike_of_complete (exec_w2b_of_capacity_le hw hle s) (exec_w2b_of_capacity_le hw hle s') ?_
      ⟨fun _ _ _ => ⟨rfl, rfl⟩, fun j h hj => blockOfWords_getElem_ge _ _ h hj⟩
    exact { hs with b := overwriteLow_agree (byteOfWords_congr hs.w) _ _ }

end

/-- Settles O34: `InertAbove` of the four commands; the frame is its case of one state. -/
theorem storageBeyondTheWidthIsInert : Obligations.StorageBeyondTheWidthIsInert := by
  intro ws k i hw hi
  have hinert : InertAbove k i := by
    obtain rfl | rfl | ⟨len, rfl⟩ | ⟨len, rfl⟩ := hi
    · exact inertAbove_mprime hw
    · exact inertAbove_rcalc hw
    · exact inertAbove_b2w hw len
    · exact inertAbove_w2b hw len
  refine ⟨fun s t h => ?_, fun s s' hs => ?_⟩
  · obtain ⟨u, -, hu, -, -, habove⟩ := hinert s s (agreeBelow_refl k s)
    cases h.symm.trans hu
    exact habove
  · obtain ⟨t, t', ht, ht', hbelow, -⟩ := hinert s s' hs
    exact ⟨t, t', ht, ht', hbelow⟩

end Sys2Proof.Machine
end

section
/-! Proofs of the family spec/42_housekeeping.md: `ZERO`, and the words that spell no command. -/

namespace Sys2Proof.Machine

/-! ### The words that spell no command (R84, R85, R142) -/

/-- R84, R85: every word that is not illegal decodes: its opcode is one of the five. -/
theorem decode_ok_of_not_illegalWord {c : Word} (h : ¬ Safety.IllegalWord c) : ∃ i, decode c = .ok i := by
  obtain ⟨hz1, hz0, hop⟩ := not_illegalWord_iff.mp h
  obtain hop | hop | ⟨hop, hlen⟩ | ⟨hop, hlen⟩ | ⟨hop, hlen, hws⟩ := hop
  · exact ⟨_, decode_eq_ok.mpr ⟨hz1, hz0, .inl ⟨hop, rfl⟩⟩⟩
  · exact ⟨_, decode_eq_ok.mpr ⟨hz1, hz0, .inr (.inl ⟨hop, rfl⟩)⟩⟩
  · exact ⟨_, decode_eq_ok.mpr ⟨hz1, hz0, .inr (.inr (.inl ⟨hop, hlen, rfl⟩))⟩⟩
  · exact ⟨_, decode_eq_ok.mpr ⟨hz1, hz0, .inr (.inr (.inr (.inl ⟨hop, hlen, rfl⟩)))⟩⟩
  · exact ⟨_, decode_eq_ok.mpr ⟨hz1, hz0, .inr (.inr (.inr (.inr ⟨hop, hlen, hws, rfl⟩)))⟩⟩

/-- R85: the decoder rejects exactly the illegal words. -/
theorem illegalWord_iff_decode_error {c : Word} : Safety.IllegalWord c ↔ ∃ e, decode c = .error e := by
  refine ⟨decode_error_of_illegalWord, fun ⟨e, he⟩ => ?_⟩
  by_contra hlegal
  obtain ⟨i, hi⟩ := decode_ok_of_not_illegalWord hlegal
  cases he.symm.trans hi

/-- R142: the completion step of an illegal word fails with `IllegalCommand`. -/
theorem completion_of_illegalWord {s : State} (h : Safety.IllegalWord s.cur) :
    completion s = .next (s.complete .illegalCommand) := by
  obtain ⟨i, hi, -⟩ | ⟨-, -, hc⟩ := completion_cases s
  · obtain ⟨e, he⟩ := decode_error_of_illegalWord h
    cases he.symm.trans hi
  · exact hc

/-- Settles O4: `CMD` latches an illegal word like any other (O10), and the unit's next turn completes it. -/
theorem illegalWordsCompleteWithIllegalCommand : Obligations.IllegalWordsCompleteWithIllegalCommand := by
  refine ⟨fun c => illegalWord_iff_decode_error, .inr (.inr (.inl rfl)), .inl (by decide),
    fun c s rest hc hs hturn => ⟨(commandStartLatchesEveryWord s c _ hturn).1 hs, ?_⟩⟩
  rw [step_of_busy rfl (.inr ⟨rest, rfl⟩), completion_of_illegalWord hc]
  rfl

/-! ### `ZERO` (R140) -/

/-- R140: `ZERO` is a single word: any other word of its opcode has a bit that R85 forbids. -/
theorem illegalWord_of_opcode_five {c : Word} (hop : Safety.opOf c = 5) (hne : c ≠ 0x00000005) :
    Safety.IllegalWord c := by
  have hnum : c.toNat ≠ 5 := fun h => hne (BitVec.eq_of_toNat_eq h)
  unfold Safety.IllegalWord
  simp only [Safety.opOf, Safety.lenOf, Safety.wselOf] at hop ⊢
  omega

/-- R140: `ZERO` always completes with `OK`. -/
theorem exec_zero (s : State) : exec .zero s = .next (s.zeroData.complete .ok) := rfl

theorem zeroized_zeroData (s : State) : Safety.Zeroized s.zeroData := ⟨rfl, rfl, rfl, rfl⟩

/-- R140: what `ZERO` leaves in the data registers and the flags is what reset leaves there. -/
theorem sameData_reset_zeroData (s : State) : Safety.SameData State.reset s.zeroData :=
  ⟨rfl, rfl, rfl, rfl, rfl, rfl⟩

/-- Settles O35: `ZERO` completes with `OK` on `State.zeroData`, in every state. -/
theorem zeroClearsEveryDataRegister : Obligations.ZeroClearsEveryDataRegister := by
  refine ⟨exec_zero, by decide, fun c hop hne => decode_error_of_illegalWord (illegalWord_of_opcode_five hop hne),
    fun s t h => ?_⟩
  cases h.symm.trans (exec_zero s)
  exact ⟨zeroized_zeroData s, sameData_reset_zeroData s⟩

end Sys2Proof.Machine
end

section
/-! Proofs of the family spec/60_exceptions.md: which code a command reports, and what a failed command leaves unchanged. -/

namespace Sys2Proof

/-! ### The command and the width of a legal word, by its number (R6, R82, R83) -/

/-- R83: a legal word spells the command of its opcode. -/
theorem decode_by_opcode {c : Word} (h : ¬ Safety.IllegalWord c) :
    (Safety.opOf c = 1 → decode c = .ok (.b2w (wselOfBits (fieldWsel c)) (Safety.lenOf c))) ∧
    (Safety.opOf c = 2 → decode c = .ok (.w2b (wselOfBits (fieldWsel c)) (Safety.lenOf c))) ∧
    (Safety.opOf c = 3 → decode c = .ok (.mprime (wselOfBits (fieldWsel c)))) ∧
    (Safety.opOf c = 4 → decode c = .ok (.rcalc (wselOfBits (fieldWsel c)))) ∧
    (Safety.opOf c = 5 → decode c = .ok .zero) := by
  obtain ⟨i, hd⟩ := Machine.decode_ok_of_not_illegalWord h
  obtain ⟨-, -, hrow⟩ := decode_ok hd
  rw [hd, Safety.opOf, Safety.lenOf, ← fieldOp_toNat, ← fieldLen_toNat]
  obtain ⟨hop, rfl⟩ | ⟨hop, rfl⟩ | ⟨hop, -, rfl⟩ | ⟨hop, -, rfl⟩ | ⟨hop, -, -, rfl⟩ := hrow
  all_goals simp [hop]

/-- R6, R82: each selector but 3 names a width, whose two sizes double from one selector to the next. -/
theorem exists_width_of_wselOf_ne {c : Word} (h : Safety.wselOf c ≠ 3) :
    ∃ k, (wselOfBits (fieldWsel c)).width = some k ∧ k.blockSize = 128 * 2 ^ Safety.wselOf c ∧
      k.wordCount = 32 * 2 ^ Safety.wselOf c := by
  have hsel : fieldWsel c = BitVec.ofNat 2 (Safety.wselOf c) := by
    rw [Safety.wselOf, ← fieldWsel_toNat, BitVec.ofNat_toNat, BitVec.setWidth_eq]
  have hlt : Safety.wselOf c < 4 := Nat.mod_lt _ (by norm_num)
  rw [hsel]
  obtain h0 | h1 | h2 : Safety.wselOf c = 0 ∨ Safety.wselOf c = 1 ∨ Safety.wselOf c = 2 := by omega
  · exact ⟨.w1024, by rw [h0]; decide⟩
  · exact ⟨.w2048, by rw [h1]; decide⟩
  · exact ⟨.w4096, by rw [h2]; decide⟩

end Sys2Proof

namespace Sys2Proof.Machine

/-! ### The code of each command, by its own rule (R150, R155) -/

section

variable {ws : Wsel} {k : Width} (hw : ws.width = some k) {s t : State}
include hw

theorem err_of_exec_b2w {len : Nat} (h : exec (.b2w ws len) s = .next t) :
    t.err = if len = k.blockSize then 0 else 1 := by
  split_ifs with hlen
  · subst hlen
    cases h.symm.trans (exec_b2w_of_length_eq hw s)
    rfl
  · cases h.symm.trans (exec_b2w_of_length_ne hw hlen s)
    rfl

theorem err_of_exec_w2b {len : Nat} (h : exec (.w2b ws len) s = .next t) :
    t.err = if len < k.blockSize then 2 else 0 := by
  split_ifs with hlen
  · cases h.symm.trans (exec_w2b_of_capacity_lt hw hlen s)
    rfl
  · cases h.symm.trans (exec_w2b_of_capacity_le hw (not_lt.mp hlen) s)
    rfl

theorem err_of_exec_mprime (h : exec (.mprime ws) s = .next t) :
    t.err = if s.w[0].toNat % 2 = 0 then 5 else 0 := by
  split_ifs with heven
  · cases h.symm.trans (exec_mprime_of_even hw heven)
    rfl
  · cases h.symm.trans (exec_mprime_of_odd hw (Nat.mod_two_ne_zero.mp heven))
    rfl

theorem err_of_exec_rcalc (h : exec (.rcalc ws) s = .next t) :
    t.err = if val s.w k.wordCount = 0 then 4 else 0 := by
  split_ifs with hn
  · cases h.symm.trans (exec_rcalc_of_eq_zero hw hn)
    rfl
  · cases h.symm.trans (exec_rcalc_of_ne_zero hw hn)
    rfl

end

/-! ### The first error of a completion (R155) -/

/-- R155: the code that the unit's turn leaves, clause by clause: illegal words and selector 3 by O4 and O36, the rest by the
command that the opcode names. -/
theorem firstError_of_step {s t : State} (hs : s.seq = .busy) (hturn : UnitHasTurn s) (h : step s = .next t) :
    Safety.FirstError s.cur s t.err := by
  have hexec {i : Instr} (hd : decode s.cur = .ok i) : exec i { s with agenda := s.agenda.tail } = .next t :=
    (step_of_busy_of_decode hs hturn hd).symm.trans h
  constructor
  case illegal =>
    intro hill
    have hc := completion_of_illegalWord (s := { s with agenda := s.agenda.tail }) hill
    cases (h.symm.trans (step_of_busy hs hturn)).trans hc
    rfl
  case internal =>
    intro hlegal hop hws
    obtain ⟨i, len, hd, hi⟩ := unsupportedWidthCompletesWithInternal.2 s.cur hlegal hop hws
    cases (hexec hd).symm.trans (exec_unsupported hi _)
    rfl
  case b2w =>
    intro hlegal hop hws
    obtain ⟨hd, -⟩ := decode_by_opcode hlegal
    obtain ⟨k, hw, hbs, -⟩ := exists_width_of_wselOf_ne hws
    rw [← hbs]
    exact err_of_exec_b2w hw (hexec (hd hop))
  case w2b =>
    intro hlegal hop hws
    obtain ⟨-, hd, -⟩ := decode_by_opcode hlegal
    obtain ⟨k, hw, hbs, -⟩ := exists_width_of_wselOf_ne hws
    rw [← hbs]
    exact err_of_exec_w2b hw (hexec (hd hop))
  case mprime =>
    intro hlegal hop hws
    obtain ⟨-, -, hd, -⟩ := decode_by_opcode hlegal
    obtain ⟨k, hw, -⟩ := exists_width_of_wselOf_ne hws
    exact (err_of_exec_mprime hw (hexec (hd hop)) :)
  case rcalc =>
    intro hlegal hop hws
    obtain ⟨-, -, -, hd, -⟩ := decode_by_opcode hlegal
    obtain ⟨k, hw, -, hwc⟩ := exists_width_of_wselOf_ne hws
    rw [← hwc]
    exact (err_of_exec_rcalc hw (hexec (hd hop)) :)
  case zero =>
    intro hlegal hop
    obtain ⟨-, -, -, -, hd⟩ := decode_by_opcode hlegal
    cases hexec (hd hop)
    rfl

/-- Settles O37: the unit's turn by `firstError_of_step`; at a reset turn every register takes its reset value. -/
theorem completionReportsTheFirstError : Obligations.CompletionReportsTheFirstError := by
  refine ⟨fun s hs hturn => ?_, fun s rest _ hreset => ⟨_, step_of_reset hreset, rfl⟩⟩
  obtain ⟨t, ht, -⟩ := step_answers s
  exact ⟨t, ht, firstError_of_step hs hturn ht⟩

/-! ### What a failed command leaves unchanged (R156) -/

/-- Settles O11: a completion with another code than `OK` applied no update (`completion_completes`). -/
theorem failedCommandChangesOnlyErrDoneSeq : Obligations.FailedCommandChangesOnlyErrDoneSeq := by
  intro s t hs hturn h herr
  obtain ⟨u, e, hc, hu, -⟩ := completion_completes { s with agenda := s.agenda.tail }
  cases (h.symm.trans (step_of_busy hs hturn)).trans hc
  have hfailed : e ≠ .ok := fun he => herr (e.code_eq_zero.mpr he)
  rw [hu hfailed]
  rfl

end Sys2Proof.Machine
end

section
/-! Proofs of the family spec/70_reset_and_hazards.md: reset, that every started command completes, and the end of a run. -/

namespace Sys2Proof.Machine

/-! ### Reset (R180, R181) -/

/-- Settles O39: the next state is `resetEvent`'s, whose registers are those of the reset state whatever was in flight. -/
theorem resetCancelsAndClearsInEveryState : Obligations.ResetCancelsAndClearsInEveryState :=
  fun _ _ hreset => ⟨_, step_of_reset hreset, ⟨rfl, rfl, rfl, rfl⟩, rfl, rfl, rfl, rfl, rfl, rfl⟩

/-! ### Every started command completes (R31, R58, R189) -/

/-- R31: `t` is the completion of the command in flight in `s`, on the registers of `s`: only the turns and the host's answer
may have moved in between. -/
def CompletionOf (s t : State) : Prop :=
  t.seq = .idle ∧ t.done = true ∧ t.cur = s.cur ∧
    completion { s with agenda := t.agenda, response := t.response } = .next t

/-- R31: at the unit's turn the command in flight completes. -/
theorem step_completionOf {s : State} (hs : s.seq = .busy) (hturn : UnitHasTurn s) :
    ∃ t, step s = .next t ∧ CompletionOf s t := by
  obtain ⟨u, e, hc, -, hcur, hagenda, hresponse, -⟩ := completion_completes { s with agenda := s.agenda.tail }
  refine ⟨u.complete e, (step_of_busy hs hturn).trans hc, rfl, rfl, hcur, ?_⟩
  rw [State.complete_agenda, State.complete_response, hagenda, hresponse]
  exact hc

/-- R58: at the host's turn the command stays in flight on the same registers. -/
theorem step_of_host_of_busy {s : State} {a : Access} {rest : List Event} (hs : s.seq = .busy)
    (hturn : s.agenda = .host a :: rest) : ∃ r, step s = .next { s with agenda := rest, response := some r } := by
  obtain ⟨r, hr⟩ := hostAccess_of_busy (s := { s with agenda := rest }) hs a
  exact ⟨r, (step_of_host hturn).trans (congrArg _ hr)⟩

/-- A run of one step is the step. -/
theorem run_one {s t : State} (h : step s = .next t) : Host.Core.run Sys2Proof.core 1 s = .next t :=
  run_succ_of_next h 0

/-- R189: after at most `k` steps the command in flight in `s` has completed. -/
def CompletesWithin (k : Nat) (s : State) : Prop :=
  ∃ n ≤ k, ∃ t, Host.Core.run Sys2Proof.core n s = .next t ∧ CompletionOf s t

theorem completesWithin_of_unitHasTurn {s : State} (hs : s.seq = .busy) (hturn : UnitHasTurn s) (k : Nat) :
    CompletesWithin (k + 1) s := by
  obtain ⟨t, hstep, ht⟩ := step_completionOf hs hturn
  exact ⟨1, Nat.le_add_left 1 k, t, run_one hstep, ht⟩

/-- R189: a step that leaves the registers alone puts the completion off by one step. -/
theorem completesWithin_of_step {s : State} {k : Nat} {l : List Event} {r : Option Response}
    (hstep : step s = .next { s with agenda := l, response := r })
    (h : CompletesWithin k { s with agenda := l, response := r }) : CompletesWithin (k + 1) s := by
  obtain ⟨n, hn, t, hrun, ht⟩ := h
  exact ⟨n + 1, Nat.succ_le_succ hn, t, (run_succ_of_next hstep n).trans hrun, ht⟩

/-- R189: the host's accesses are used up one by one, and the first turn that is not the host's is the unit's. -/
theorem completesWithin_turns {l : List Event} (hno : Event.reset ∉ l) : ∀ {s : State}, s.agenda = l → s.seq = .busy →
    CompletesWithin (l.length + 1) s := by
  induction l with
  | nil => exact fun hturn hs => completesWithin_of_unitHasTurn hs (.inl hturn) _
  | cons e rest ih =>
    intro s hturn hs
    cases e with
    | host a =>
      obtain ⟨r, hstep⟩ := step_of_host_of_busy hs hturn
      exact completesWithin_of_step hstep (ih (List.not_mem_of_not_mem_cons hno) rfl hs)
    | unit => exact completesWithin_of_unitHasTurn hs (.inr ⟨rest, hturn⟩) _
    | reset => exact absurd List.mem_cons_self hno

/-- Settles O40, by induction on the turns to come (`completesWithin_turns`). -/
theorem everyStartedCommandCompletes : Obligations.EveryStartedCommandCompletes :=
  fun _ hs hno => completesWithin_turns hno rfl hs

/-! ### The end of a run (R180, R182, R193) -/

/-- R193: `RunOver` asks for no access of the host by name. -/
theorem runOver_iff {s : State} : Safety.RunOver s ↔ (∀ a : Access, Event.host a ∉ s.agenda) ∧ s.seq = .idle :=
  and_congr_left' (isAccess_all_false s.agenda)

/-- R193: a run that is over stays over when turns are taken off the agenda. -/
theorem runOver_of_tail {s t : State} (h : Safety.RunOver s) (ha : t.agenda = s.agenda.tail) (ht : t.seq = .idle) :
    Safety.RunOver t :=
  have ⟨hnone, _⟩ := h
  ⟨fun e he => hnone e (List.mem_of_mem_tail (ha ▸ he)), ht⟩

/-- R193: with no access and no reset left, the next turn is the unit's. -/
theorem unitHasTurn_of_runOver {s : State} (h : Safety.RunOver s) (hno : Event.reset ∉ s.agenda) : UnitHasTurn s := by
  obtain ⟨hhost, -⟩ := runOver_iff.mp h
  cases ha : s.agenda with
  | nil => exact .inl ha
  | cons e rest =>
    rw [ha] at hhost hno
    cases e with
    | host a => exact absurd List.mem_cons_self (hhost a)
    | unit => exact .inr ⟨rest, ha⟩
    | reset => exact absurd List.mem_cons_self hno

/-- R182, R193: while no reset falls, no number of steps changes the final state. -/
theorem run_of_runOver (n : Nat) : ∀ {s : State}, Safety.RunOver s → Event.reset ∉ s.agenda →
    ∃ t, Host.Core.run Sys2Proof.core n s = .next t ∧ Safety.RunOver t ∧ Safety.registers t = Safety.registers s := by
  induction n with
  | zero => exact fun h _ => ⟨_, run_zero _, h, rfl⟩
  | succ n ih =>
    intro s h hno
    have hidle : s.seq = .idle := h.2
    have hstep := step_of_idle hidle (unitHasTurn_of_runOver h hno)
    obtain ⟨t, hrun, hover, hregs⟩ := ih (s := { s with agenda := s.agenda.tail }) (runOver_of_tail h rfl hidle)
      (fun hmem => hno (List.mem_of_mem_tail hmem))
    exact ⟨t, (run_succ_of_next hstep n).trans hrun, hover, hregs⟩

/-- R193: with a command in flight the run is not over. -/
theorem finalState_of_busy {s : State} (hs : s.seq = .busy) : Safety.finalState s = none :=
  if_neg fun h => SeqState.noConfusion (hs.symm.trans h.2)

theorem eq_nil_of_eq_tail {l : List Event} (h : l = l.tail) : l = [] := by
  cases l with
  | nil => rfl
  | cons e rest => exact absurd h (List.cons_ne_self e rest)

/-- Log 1, log 2: a step that changes nothing took no turn and completed nothing, so it is that of an idle unit at rest. -/
theorem step_eq_self_iff {s : State} : step s = .next s ↔ s.agenda = [] ∧ s.seq = .idle := by
  constructor
  · intro h
    have ha : s.agenda = [] := eq_nil_of_eq_tail (step_next_answers h).1
    refine ⟨ha, ?_⟩
    cases hs : s.seq with
    | idle => rfl
    | busy =>
      obtain ⟨t, hstep, hidle, -⟩ := step_completionOf hs (.inl ha)
      cases h.symm.trans hstep
      exact hs.symm.trans hidle
  · rintro ⟨ha, hs⟩
    rw [step_of_idle hs (.inl ha), ha, List.tail_nil, ← ha]

/-- Settles O41: the end of a run by `runOver_iff`, what follows it by `run_of_runOver` and the turn of reset. -/
theorem runIsOverExactlyWhenIdleWithNoAccessLeft : Obligations.RunIsOverExactlyWhenIdleWithNoAccessLeft := by
  refine ⟨fun s => runOver_iff, fun s hhost hs => ?_, fun s => finalState_of_busy, fun s r h hno n => ?_,
    fun s r rest h hreset => ?_, fun s => step_eq_self_iff⟩
  · exact finalState_eq_some.mpr ⟨runOver_iff.mpr ⟨hhost, hs⟩, by rw [Safety.registers, hs]⟩
  · obtain ⟨hover, hr⟩ := finalState_eq_some.mp h
    obtain ⟨t, hrun, hover', hregs⟩ := run_of_runOver n hover hno
    exact ⟨t, hrun, finalState_eq_some.mpr ⟨hover', hregs.trans hr⟩⟩
  · obtain ⟨hover, -⟩ := finalState_eq_some.mp h
    exact ⟨_, step_of_reset hreset, finalState_eq_some.mpr ⟨runOver_of_tail hover (by rw [hreset]; rfl) rfl, rfl⟩⟩

end Sys2Proof.Machine
end
